-- ==== Sys2Proof/Word.lean ====
section
/-! DEFINITION. The word types of the block (00_scope.md rule R11, 30_encoding.md rules R60, R62). -/

namespace Sys2Proof

/-- A byte: 8 bits (R11). -/
abbrev Byte := BitVec 8

/-- A value on the 32-bit data path (R11): `cmd_wdata` and `rsp_rdata`. -/
abbrev Word := BitVec 32

/-- A command word: 35 bits, `op` in bits 34..32 and `wdata` in bits 31..0 (R60). -/
abbrev CmdWord := BitVec 35

/-- A response word: 34 bits, `status` in bits 33..32 and `rdata` in bits 31..0 (R62). -/
abbrev RspWord := BitVec 34

end Sys2Proof
end

