-- ==== Sys2Proof/Syntax.lean ====
section
/-! DEFINITION. The commands of the block (00_scope.md rule R3, 30_encoding.md rule R63), the transfer widths
(40_datapath.md rule R80), and the assembler's lines (30_encoding.md rule R72). -/

namespace Sys2Proof

/-- The transfer width `w` that the width selector picks (R80): the constructor says how many bytes. -/
inductive Width where
  | one
  | two
  | four
  deriving DecidableEq, Repr

/-- A command, one constructor for each row of the opcode table (R63). A PUT carries the value it stores, already cut
to its width (R64), so an operand that does not fit cannot be written down. -/
inductive Instr where
  /-- PUT8, op `000` (R110). -/
  | put8 (v : BitVec 8)
  /-- PUT16, op `001` (R111). -/
  | put16 (v : BitVec 16)
  /-- PUT32, op `010` (R112). -/
  | put32 (v : BitVec 32)
  /-- RSVD, the reserved op `011` (R68). -/
  | rsvd
  /-- GET8, op `100` (R130). -/
  | get8
  /-- GET16, op `101` (R131). -/
  | get16
  /-- GET32, op `110` (R132). -/
  | get32
  /-- INIT, op `111` (R100). -/
  | init
  deriving DecidableEq, Repr

/-- One line of the assembler's language, its immediates as the natural numbers they were written as (R72). -/
inductive AsmLine where
  | put8 (imm : Nat)
  | put16 (imm : Nat)
  | put32 (imm : Nat)
  | get8
  | get16
  | get32
  | init
  /-- `.cmd <imm35>`: any raw command word. -/
  | cmd (imm : Nat)
  deriving DecidableEq, Repr

/-- Why a line of text is no command word. -/
inductive AsmError where
  /-- The line is none of the forms of R72. -/
  | badLine
  /-- An immediate does not fit its field: an assembly error, not a truncation (R72, D28). -/
  | immediateTooWide
  deriving DecidableEq, Repr

end Sys2Proof
end

