-- ==== Sys2Proof/WellFormed.lean ====
section
/-! DEFINITION. Which terms are well formed. A term of `Instr` always is: its operand's type has exactly the width of
its field (30_encoding.md rule R64). What can be ill formed is a line of the assembler, whose immediate may not fit its
field (rule R72, decision D28). -/

namespace Sys2Proof

/-- An immediate fits its field unsigned (R72): `imm8 <= 0xFF`, `imm16 <= 0xFFFF`, `imm32 <= 0xFFFFFFFF`,
`imm35 <= 0x7FFFFFFFF`. -/
def AsmLine.wellFormed : AsmLine → Bool
  | .put8 imm => decide (imm ≤ 0xFF)
  | .put16 imm => decide (imm ≤ 0xFFFF)
  | .put32 imm => decide (imm ≤ 0xFFFFFFFF)
  | .get8 => true
  | .get16 => true
  | .get32 => true
  | .init => true
  | .cmd imm => decide (imm ≤ 0x7FFFFFFFF)

end Sys2Proof
end

