-- ==== Sys2Proof/Decode.lean ====
section
/-! DEFINITION. The decoder and the encoder of command words (30_encoding.md), and the assembler (rules R72, R73). -/

namespace Sys2Proof

/-! ## Fields of a command word (R60, R61) -/

/-- `cmd_op`, bits 34..32 (R60). -/
def opField (c : CmdWord) : BitVec 3 := c.extractLsb' 32 3

/-- `cmd_wdata`, bits 31..0 (R60). -/
def wdataField (c : CmdWord) : Word := c.extractLsb' 0 32

/-- `dir = op[2]`: false writes storage, true reads it (R61). -/
def dirBit (op : BitVec 3) : Bool := op.getLsbD 2

/-- `wsel = op[1:0]` (R61). -/
def wselField (op : BitVec 3) : BitVec 2 := op.extractLsb' 0 2

/-- The width selector (R61, R80): `wsel` 0, 1, 2 selects 1, 2, 4 bytes; 3 selects a command that moves no value. -/
def widthOf (wsel : BitVec 2) : Option Width :=
  match wsel.toNat with
  | 0 => some .one
  | 1 => some .two
  | 2 => some .four
  | _ => none

/-! ## Decoding -/

/-- The value a PUT stores: `wdata[8w-1:0]`, the bits above ignored (R64). -/
def decodePut (w : Width) (wdata : Word) : Instr :=
  match w with
  | .one => .put8 (wdata.extractLsb' 0 8)
  | .two => .put16 (wdata.extractLsb' 0 16)
  | .four => .put32 wdata

/-- The GETs have no operand (R130 to R132). -/
def decodeGet (w : Width) : Instr :=
  match w with
  | .one => .get8
  | .two => .get16
  | .four => .get32

/-- The decoder, total on 35-bit words and by `op` alone (R63, R71, R92). -/
def decode (c : CmdWord) : Instr :=
  match widthOf (wselField (opField c)), dirBit (opField c) with
  | none, true => .init
  | none, false => .rsvd
  | some w, false => decodePut w (wdataField c)
  | some w, true => decodeGet w

/-- Why a number is not the number of a command word. -/
inductive DecodeError where
  /-- It has a bit above bit 34, and the command port has 35 wires (R60, D28; log 15). -/
  | notACommandWord
  deriving DecidableEq, Repr

/-- The decoder on any number: a number of more than 35 bits is rejected by name, never truncated (log 15). -/
def decodeNat (n : Nat) : Except DecodeError Instr :=
  if n < 2 ^ 35 then .ok (decode (BitVec.ofNat 35 n)) else .error .notACommandWord

/-- The instruction the decoder reads from the low `nbits` bits of `w`, numbered as spec/opcode_table.json numbers them:
bit 0 is the least significant bit of the one command word. -/
def decodeTableWord (nbits w : Nat) : Option Instr :=
  match decodeNat (w % 2 ^ nbits) with
  | .ok i => some i
  | .error _ => none

/-! ## Encoding -/

/-- The op field of each command (R63). -/
def opOf : Instr → BitVec 3
  | .put8 _ => 0b000#3
  | .put16 _ => 0b001#3
  | .put32 _ => 0b010#3
  | .rsvd => 0b011#3
  | .get8 => 0b100#3
  | .get16 => 0b101#3
  | .get32 => 0b110#3
  | .init => 0b111#3

/-- The data field of each command, ignored bits filled with 0 (R72). -/
def wdataOf : Instr → Word
  | .put8 v => v.setWidth 32
  | .put16 v => v.setWidth 32
  | .put32 v => v
  | .rsvd => 0
  | .get8 => 0
  | .get16 => 0
  | .get32 => 0
  | .init => 0

/-- A command word from its two fields, `cmd = {op, wdata}` (R60). -/
def cmdWord (op : BitVec 3) (wdata : Word) : CmdWord := op.setWidth 35 <<< 32 ||| wdata.setWidth 35

/-- The encoder: the command word of a command (R60, R63, R72). -/
def encode (i : Instr) : CmdWord := cmdWord (opOf i) (wdataOf i)

/-- The mask of every row of the opcode map: bits 34..32 (R63). -/
def opMask : CmdWord := 0x700000000#35

/-- The match value of each command's row: `op << 32` (R63). -/
def matchOf (i : Instr) : CmdWord := (opOf i).setWidth 35 <<< 32

/-- Which bits of `wdata` a command's meaning reads (R64); the others are ignored. -/
def usedBits : Instr → Word
  | .put8 _ => 0x000000FF#32
  | .put16 _ => 0x0000FFFF#32
  | .put32 _ => 0xFFFFFFFF#32
  | .rsvd => 0
  | .get8 => 0
  | .get16 => 0
  | .get32 => 0
  | .init => 0

/-! ## The assembler (R72, R73) -/

/-- The command word of a well-formed line, without the check that its immediate fits. -/
def lineWord : AsmLine → CmdWord
  | .put8 imm => encode (.put8 (BitVec.ofNat 8 imm))
  | .put16 imm => encode (.put16 (BitVec.ofNat 16 imm))
  | .put32 imm => encode (.put32 (BitVec.ofNat 32 imm))
  | .get8 => encode .get8
  | .get16 => encode .get16
  | .get32 => encode .get32
  | .init => encode .init
  | .cmd imm => BitVec.ofNat 35 imm

/-- The assembler on a parsed line: one command word for each line (R73); an immediate that does not fit is an error,
never a truncation (R72, D28). -/
def assembleLine (l : AsmLine) : Except AsmError CmdWord :=
  if l.wellFormed then .ok (lineWord l) else .error .immediateTooWide

/-- The value of a hexadecimal digit. DESIGN CHOICE: either case of a letter is accepted (log 22). -/
def digitValue (c : Char) : Option Nat :=
  let n := c.toNat
  if 48 ≤ n && n ≤ 57 then some (n - 48)
  else if 65 ≤ n && n ≤ 70 then some (n - 55)
  else if 97 ≤ n && n ≤ 102 then some (n - 87)
  else none

/-- The number that digits of a base write, most significant first, after `acc`. -/
def digitsValue (base acc : Nat) : List Char → Option Nat
  | [] => some acc
  | c :: cs =>
    match digitValue c with
    | some d => if d < base then digitsValue base (base * acc + d) cs else none
    | none => none

/-- An immediate: decimal, or hexadecimal after `0x` (R72). DESIGN CHOICE: `0X` is no such mark, and leading zeros are
accepted (log 22). -/
def parseImmediate : List Char → Option Nat
  | [] => none
  | '0' :: 'x' :: c :: cs => digitsValue 16 0 (c :: cs)
  | c :: cs => digitsValue 10 0 (c :: cs)

/-- A line without its comment, which starts with `;` (R72). -/
def dropComment : List Char → List Char
  | [] => []
  | c :: cs => if c = ';' then [] else c :: dropComment cs

/-- A character that separates the words of a line. DESIGN CHOICE: space and tab, and no other (log 22). -/
def isBlank (c : Char) : Bool := c = ' ' || c = '\t'

/-- The words of a line, the word being read held in `acc`, last character first. DESIGN CHOICE: any number of blanks
separates two words, and may stand before the first and after the last (log 22). -/
def splitWords (acc : List Char) : List Char → List (List Char)
  | [] => if acc.isEmpty then [] else [acc.reverse]
  | c :: cs =>
    if isBlank c then
      if acc.isEmpty then splitWords [] cs else acc.reverse :: splitWords [] cs
    else splitWords (c :: acc) cs

/-- One line of text as a line of the assembler (R72): none for a comment alone. DESIGN CHOICE: none for a blank line too,
and mnemonics only as R72 spells them, in capitals (log 22). -/
def parseLine (text : String) : Except AsmError (Option AsmLine) :=
  match splitWords [] (dropComment text.toList) with
  | [] => .ok none
  | [m] =>
    if m = "GET8".toList then .ok (some .get8)
    else if m = "GET16".toList then .ok (some .get16)
    else if m = "GET32".toList then .ok (some .get32)
    else if m = "INIT".toList then .ok (some .init)
    else .error .badLine
  | [m, imm] =>
    match parseImmediate imm with
    | none => .error .badLine
    | some n =>
      if m = "PUT8".toList then .ok (some (.put8 n))
      else if m = "PUT16".toList then .ok (some (.put16 n))
      else if m = "PUT32".toList then .ok (some (.put32 n))
      else if m = ".cmd".toList then .ok (some (.cmd n))
      else .error .badLine
  | _ => .error .badLine

/-- The assembler on one line of text (R72). -/
def assembleText (text : String) : Except AsmError (Option CmdWord) :=
  match parseLine text with
  | .error e => .error e
  | .ok none => .ok none
  | .ok (some l) => (assembleLine l).map some

end Sys2Proof
end

