-- ==== Sys2Proof/Config.lean ====
section
/-! DEFINITION. What an implementation fixes when the block is built (00_scope.md rules R9 and R12), and the values
the spec leaves open, as constants with no body. -/

namespace Sys2Proof

/-- The parameters of one build of the block. They are a field of `Machine.State` that no step changes, so that a
statement about every state is a statement about every build (log 1). `ℕ+` is a number that is at least 1. -/
structure Build where
  /-- `N`: how many byte slots the storage has, at least 1, not necessarily a power of two (R9). -/
  cap : ℕ+
  /-- `LAT_RSP`: cycles from acceptance to response, at least 1 (R12, R175). -/
  latRsp : ℕ+
  /-- `CLR_CYCLES`: cycles `cmd_ready` stays low after reset or INIT; 0 is allowed (R12, R172), and so
  is, as the model's choice, a number below `ceil(N/4)` (log 21). -/
  clrCycles : Nat
  deriving DecidableEq, Repr

/-- `N` as a natural number (R9). -/
def Build.N (b : Build) : Nat := (b.cap : Nat)

/-- The reference configuration `N = 8`, with the reference timing `LAT_RSP = 1`, `CLR_CYCLES = ceil(N/4) = 2`
(R9, R12, R172). -/
def Build.reference8 : Build := { cap := 8, latRsp := 1, clrCycles := 2 }

/-- The reference configuration `N = 32`, with `LAT_RSP = 1`, `CLR_CYCLES = 8` (R9, R12, R172). -/
def Build.reference32 : Build := { cap := 32, latRsp := 1, clrCycles := 8 }

/-! Free values. Each is a constant with no body, applied to the counter `draws` of the state: nothing constrains it. -/

/-- `rsp_rdata` of a response that carries no value (R65, U1, U2; log 5). -/
opaque Config.anyRdata : Nat → Word

/-- `rsp_st` while the register holds no response: after a reset edge (R34, U3; log 6), and after a cycle without reset in
which none arrives (R31; log 8). -/
opaque Config.anyRspSt : Nat → BitVec 2

/-- `rsp_dat` while the register holds no response (R31, R34, U3; logs 6 and 8). -/
opaque Config.anyRspDat : Nat → Word

/-- What the `rsp_status` pins show in a cycle with `rsp_valid = 0` (R62 gives them a meaning with `rsp_valid = 1` alone;
log 18). -/
opaque Config.anyIdleStatus : Nat → BitVec 2

/-- What the `rsp_rdata` pins show in a cycle with `rsp_valid = 0` (R62; log 18). -/
opaque Config.anyIdleRdata : Nat → Word

/-- `clr_ptr`, before it is cut to its AW bits (R35, U4; log 7). -/
opaque Config.anyClrPtr : Nat → Nat

/-- What the RAM's read data output of a lane holds where rule R56 does not say: first the draw, then the lane
(R56, U14; log 10). -/
opaque Config.anyLane : Nat → Nat → Byte

end Sys2Proof
end

