-- ==== Sys2Proof/Machine/State.lean ====
section
/-! DEFINITION. The state of the block as plain data (10_state.md), the reasons a step can stop, and the state right
after reset (rule R37). -/

namespace Sys2Proof.Machine

/-- The storage `mem` (R20): (slot, byte) pairs in one canonical form, slots strictly rising, no byte equal to what an
unlisted slot reads as. -/
abbrev Memory := List Host.Cell

/-- The canonical form of the storage: slots strictly rising, and no entry holds 0x00, which is what an unlisted slot
reads as (R37: after reset every byte is 0x00). -/
abbrev Memory.wf (m : Memory) : Prop :=
  m.Pairwise (fun a b => a.1 < b.1) ∧ ∀ c ∈ m, c.2 ≠ 0

/-- The status of a response (R67). The code `11` is never driven, so it has no constructor. -/
inductive Status where
  /-- OK: the command succeeded and made its state change. -/
  | ok
  /-- ECAP: capacity violation, no state change. -/
  | ecap
  /-- EILL: illegal command, no state change. -/
  | eill
  deriving DecidableEq, Repr

/-- A response: status and data (R62). -/
structure Response where
  status : Status
  rdata : Word
  deriving DecidableEq, Repr

/-- What a command may raise (R16, R150): it selects the response and transfers no control (R155). -/
inductive ErrorKind where
  /-- `raise CapacityViolation()`: responds ECAP (R151). -/
  | capacityViolation
  /-- `raise IllegalCommand()`: responds EILL (R152). -/
  | illegalCommand
  deriving DecidableEq, Repr

/-- Four bytes, one for each byte lane of the datapath (R11). -/
structure Lanes where
  lane0 : Byte
  lane1 : Byte
  lane2 : Byte
  lane3 : Byte
  deriving DecidableEq, Repr

/-- An enabled lane of the RAM's write port: `ram_waddr[k]` and `ram_wdata[k]` with `ram_we[k] = 1` (R55). -/
structure WriteLane where
  addr : Nat
  data : Byte
  deriving DecidableEq, Repr

/-- The output pins of the block in one cycle (R170). -/
structure PortOut where
  cmdReady : Bool
  rspValid : Bool
  rspStatus : BitVec 2
  rspRdata : Word
  stFree : Nat
  stEmpty : Bool
  stFull : Bool
  deriving DecidableEq, Repr

/-- The state of the block, with its build-time parameters and its inputs. -/
structure State where
  /-- The build-time parameters (R9, R12); no step changes them. -/
  build : Build
  /-- `mem`, the storage (R20). -/
  mem : Memory
  /-- `rd`, the read cursor: AW bits, in `[0, N)` (R21). -/
  rd : Nat
  /-- `wr`, the write cursor: AW bits, in `[0, N)` (R22). -/
  wr : Nat
  /-- `fc`, the free count: FW bits, in `[0, N]` (R23). -/
  fc : Nat
  /-- `rsp_pend`, of the pending-response register that drives the response port (R34). -/
  rspPend : Bool
  /-- `rsp_st` (R34). -/
  rspSt : BitVec 2
  /-- `rsp_dat` (R34). -/
  rspDat : Word
  /-- The `LAT_RSP - 1` stages in front of that register, the next to be presented first (R175; log 8). -/
  rspLine : List (Option Response)
  /-- `clr_busy`, of the clear sequencer (R35). -/
  clrBusy : Bool
  /-- `clr_ptr`: AW bits (R35). -/
  clrPtr : Nat
  /-- The model's own: the number `j` of the current cycle of the clear sequence (R55, R172; log 7). -/
  clrCycle : Nat
  /-- `ram_rdata[0..3]`, the read port's data outputs (R56). -/
  ramRdata : Lanes
  /-- The level of the `rst` pin in this and the later cycles; low where the list has ended (R170; log 2). -/
  rstIn : List Bool
  /-- What the host presents on the command port: a command word, held until it is accepted (R174), or an idle cycle;
  idle where the list has ended (log 2). -/
  cmdIn : List (Option CmdWord)
  /-- The model's own: the counter at which the free values are drawn (log 14). -/
  draws : Nat
  deriving DecidableEq, Repr

/-- Why the machine can stop. The block itself has no trap and never halts (R155, R182). -/
inductive Fault where
  /-- The RAM's write port and read port are both active in one cycle. U13 asks a model to fault here; R57 says that it
  cannot happen, and it never does. Raised by `step` alone; safe. -/
  | ramPortConflict
  deriving DecidableEq, Repr

/-- Why an instruction can be without a meaning. -/
inductive Refusal where
  /-- No meaning has been written for the instruction. Raised by an arm of `exec` alone, and by none today; safe. -/
  | notModelled (mnemonic : String)
  deriving DecidableEq, Repr

/-- A build of the block right after its reset edge (R37): storage zero, cursors 0, `fc = N`, no response pending, the
clear sequence about to start, nothing at the inputs. `rspSt`, `rspDat`, `clrPtr` and `ramRdata` have no reset value in
the spec; they are 0 here (DESIGN CHOICE, log 4). -/
def State.resetOf (b : Build) : State :=
  { build := b
    mem := []
    rd := 0
    wr := 0
    fc := b.N
    rspPend := false
    rspSt := 0
    rspDat := 0
    rspLine := List.replicate ((b.latRsp : Nat) - 1) none
    clrBusy := decide (0 < b.clrCycles)
    clrPtr := 0
    clrCycle := 0
    ramRdata := ⟨0, 0, 0, 0⟩
    rstIn := []
    cmdIn := []
    draws := 0 }

/-- The machine right after reset: the reference build `N = 8` (log 1). -/
def State.reset : State := State.resetOf Build.reference8

end Sys2Proof.Machine
end

