-- ==== Sys2Proof/Machine/Operands.lean ====
section
/-! DEFINITION. The datapath's units: the width selector's byte counts, the index unit, the byte lanes, the pack and
unpack multiplexers, and the ports of the RAM (00_scope.md, 20_memory.md, 30_encoding.md, 40_datapath.md). -/

namespace Sys2Proof.Machine

/-! ## Widths of transfers and registers -/

/-- `w`, the number of bytes a width moves (R80). -/
def byteCount : Width → Nat
  | .one => 1
  | .two => 2
  | .four => 4

/-- The four byte lanes of the datapath (R11). -/
def allLanes : List Nat := [0, 1, 2, 3]

/-- The lanes a transfer of width `w` enables: `k < w` (R86, R87). -/
def enabledLanes : Width → List Nat
  | .one => [0]
  | .two => [0, 1]
  | .four => [0, 1, 2, 3]

/-- `ceil(log2 n)`, for `n >= 1`. -/
def ceilLog2 (n : Nat) : Nat := if n ≤ 1 then 0 else Nat.log2 (n - 1) + 1

/-- `AW`, the width in bits of a cursor register (R10). -/
def cursorBits (b : Build) : Nat := max 1 (ceilLog2 b.N)

/-- `FW`, the width in bits of the free-count register (R10). -/
def countBits (b : Build) : Nat := Nat.log2 b.N + 1

/-! ## The index unit -/

/-- `idx(c, k) = (c + k) mod N`: the slot of byte `k` of an access that starts at cursor `c` (R15, R41, R83). -/
def idx (b : Build) (c k : Nat) : Nat := (c + k) % b.N

/-- `adv(c, w) = (c + w) mod N` (R84). -/
def adv (b : Build) (c w : Nat) : Nat := (c + w) % b.N

/-! ## The informative banked realisation (R59) -/

/-- The bank that holds a slot, when the storage is built of four banks (R59). -/
def bankOf (a : Nat) : Nat := a % 4

/-- The row of a slot in its bank (R59). -/
def bankRow (a : Nat) : Nat := a / 4

/-! ## Byte lanes -/

/-- Bits `[8k+7:8k]` of a value: what lane `k` carries (R11, R86). -/
def byteLane (v : Word) (k : Nat) : Byte := v.extractLsb' (8 * k) 8

/-- The byte of lane `k`. -/
def laneByte (l : Lanes) (k : Nat) : Byte :=
  match k with
  | 0 => l.lane0
  | 1 => l.lane1
  | 2 => l.lane2
  | _ => l.lane3

/-- Four lanes, each by its number. -/
def lanesOf (f : Nat → Byte) : Lanes := ⟨f 0, f 1, f 2, f 3⟩

/-- The unpack unit (R43, R87): lane `k < w` goes to bits `[8k+7:8k]` as an unsigned byte, bits `[31:8w]` are 0. -/
def unpack (w : Width) (l : Lanes) : Word :=
  (enabledLanes w).foldl (fun acc k => acc ||| ((laneByte l k).setWidth 32 <<< (8 * k))) 0

/-- The value a PUT8 hands to the datapath, whose lanes above 0 it leaves disabled (R64). -/
def operand8 (v : BitVec 8) : Word := v.setWidth 32

/-- The value a PUT16 hands to the datapath, whose lanes above 1 it leaves disabled (R64). -/
def operand16 (v : BitVec 16) : Word := v.setWidth 32

/-! ## The storage -/

/-- What a slot that is not listed reads as: 0x00, since reset and INIT set every byte to 0 (R20, R37). -/
def blankByte : Byte := 0

/-- `mem[i]` (R14). -/
def Memory.read (m : Memory) (a : Nat) : Byte :=
  match m with
  | [] => blankByte
  | (b, x) :: rest => if a = b then x else Memory.read rest a

/-- A cell put into its place in the order of slots. -/
def Memory.insert (m : Memory) (a : Nat) (v : Byte) : Memory :=
  match m with
  | [] => [(a, v)]
  | (b, x) :: rest => if a < b then (a, v) :: (b, x) :: rest else (b, x) :: Memory.insert rest a v

/-- The storage with slot `a` not listed. -/
def Memory.clear (m : Memory) (a : Nat) : Memory := m.filter (fun c => decide (c.1 ≠ a))

/-- `mem[i] <- v` (R14), which keeps the canonical form: writing what an unlisted slot reads as removes the entry. -/
def Memory.write (m : Memory) (a : Nat) (v : Byte) : Memory :=
  if v = blankByte then Memory.clear m a else Memory.insert (Memory.clear m a) a v

/-! ## The RAM's ports -/

/-- The write port's lanes for a PUT (R55, R86): lane `k < w` writes `v[8k+7:8k]` to `idx(wr, k)`; the others are
disabled, and their don't-care addresses and data are absent. -/
def putLanes (b : Build) (wr : Nat) (w : Width) (v : Word) : List (Option WriteLane) :=
  allLanes.map fun k => if k < byteCount w then some ⟨idx b wr k, byteLane v k⟩ else none

/-- The write port's lanes in cycle `j` of the clear sequence (R55): lane `k` writes 0 to slot `4j + k` where there is
such a slot. -/
def clearLanes (b : Build) (j : Nat) : List (Option WriteLane) :=
  allLanes.map fun k => if 4 * j + k < b.N then some ⟨4 * j + k, 0⟩ else none

/-- The write port with every lane disabled: `ram_we = 0000` (R55). -/
def idleLanes : List (Option WriteLane) := allLanes.map fun _ => none

/-- One lane of the write port at the edge: an enabled lane writes its slot, a disabled one nothing (R55, R58). -/
def commitLane (m : Memory) : Option WriteLane → Memory
  | some l => Memory.write m l.addr l.data
  | none => m

/-- The write port at the edge that ends the cycle (R55). -/
def commitLanes (m : Memory) (lanes : List (Option WriteLane)) : Memory := lanes.foldl commitLane m

/-- `MemWrite(c, n, v)` (R15) through the write port. -/
def memWrite (b : Build) (m : Memory) (c : Nat) (w : Width) (v : Word) : Memory :=
  commitLanes m (putLanes b c w v)

/-- The read port's data after a GET's read (R56): lane `k < w` holds `mem[idx(rd, k)]`; the other lanes' addresses are
don't-care, so each of them holds a free value (log 10). -/
def readLanes (b : Build) (m : Memory) (rd : Nat) (w : Width) (draw : Nat) : Lanes :=
  lanesOf fun k => if k < byteCount w then Memory.read m (idx b rd k) else Config.anyLane draw k

/-- The read port's data where nothing was read: free values (R56 says what it holds after a read; log 10). -/
def unreadLanes (draw : Nat) : Lanes := lanesOf fun k => Config.anyLane draw k

end Sys2Proof.Machine
end

