-- ==== Sys2Proof/Machine/Flags.lean ====
section
/-! DEFINITION. The block has no flags (10_state.md rule R31). What stands here are the conditions and codes that its
rules compute: occupancy, the capacity checks, the status outputs and the status codes. -/

namespace Sys2Proof.Machine

/-- `occ = N - fc`, the number of bytes put and not yet got (R24). -/
def occupied (s : State) : Nat := s.build.N - s.fc

/-- `put_ok(fc, w) = (fc >= w)` (R81). -/
def putOk (s : State) (w : Width) : Bool := decide (byteCount w ≤ s.fc)

/-- `get_ok(fc, w) = (N - fc >= w)` in exact integers, written without the subtraction (R82, C6). -/
def getOk (s : State) (w : Width) : Bool := decide (s.fc + byteCount w ≤ s.build.N)

/-- `st_free = fc` (R32). -/
def stFree (s : State) : Nat := s.fc

/-- `st_empty`: 1 exactly when `fc = N` (R32). -/
def stEmpty (s : State) : Bool := decide (s.fc = s.build.N)

/-- `st_full`: 1 exactly when `fc = 0` (R32). -/
def stFull (s : State) : Bool := decide (s.fc = 0)

/-- The code of a status on `rsp_status` (R67). -/
def statusCode : Status → BitVec 2
  | .ok => 0b00#2
  | .ecap => 0b01#2
  | .eill => 0b10#2

/-- The status that an error reports (R16, R150). -/
def errorStatus : ErrorKind → Status
  | .capacityViolation => .ecap
  | .illegalCommand => .eill

/-- The response word, `rsp = {status, rdata}` (R62). -/
def responseWord (r : Response) : RspWord :=
  (statusCode r.status).setWidth 34 <<< 32 ||| r.rdata.setWidth 34

end Sys2Proof.Machine
end

