-- ==== Sys2Proof/Machine/Ops.lean ====
section
/-! DEFINITION. The named operations on the state: one update for each group of fields, the response of a command, the
raising of an error, and the transfers that the PUT and GET families share. -/

namespace Sys2Proof.Machine

/-! ## Updates -/

/-- `mem <- m` (R20). -/
def State.setMem (s : State) (m : Memory) : State := { s with mem := m }

/-- `rd <- c` (R21). -/
def State.setRd (s : State) (c : Nat) : State := { s with rd := c }

/-- `wr <- c` (R22). -/
def State.setWr (s : State) (c : Nat) : State := { s with wr := c }

/-- `fc <- n` (R23). -/
def State.setFc (s : State) (n : Nat) : State := { s with fc := n }

/-- The pending-response register and the stages in front of it (R34, R175). -/
def State.setRsp (s : State) (pend : Bool) (st : BitVec 2) (dat : Word) (line : List (Option Response)) : State :=
  { s with rspPend := pend, rspSt := st, rspDat := dat, rspLine := line }

/-- The clear sequencer (R35). -/
def State.setClear (s : State) (busy : Bool) (ptr cycle : Nat) : State :=
  { s with clrBusy := busy, clrPtr := ptr, clrCycle := cycle }

/-- The read port's data outputs (R56). -/
def State.setRam (s : State) (l : Lanes) : State := { s with ramRdata := l }

/-- What the host still has to drive (R174). -/
def State.setInputs (s : State) (rst : List Bool) (cmd : List (Option CmdWord)) : State :=
  { s with rstIn := rst, cmdIn := cmd }

/-- The free values drawn so far are used up (log 14). -/
def State.nextDraw (s : State) : State := { s with draws := s.draws + 1 }

/-! ## Responding -/

/-- The response of a command enters the response pipeline at its acceptance edge (R34, R62): the pending-response
register itself when `LAT_RSP = 1`, else the last of the stages in front of it (R175; log 8). -/
def postResponse (r : Response) (s : State) : State :=
  s.setRsp
    (s.rspLine.isEmpty || s.rspPend)
    (if s.rspLine.isEmpty then statusCode r.status else s.rspSt)
    (if s.rspLine.isEmpty then r.rdata else s.rspDat)
    (if s.rspLine.isEmpty then [] else s.rspLine.dropLast ++ [some r])

/-- `respond(status, data)` (R16, R66). -/
def respond (st : Status) (data : Word) (s : State) : State := postResponse ⟨st, data⟩ s

/-- `respond(status, any)`: the data is a free value (R16, R65; log 5). -/
def respondAny (st : Status) (s : State) : State := (respond st (Config.anyRdata s.draws) s).nextDraw

/-- Raising an error: the one shared operation for CapacityViolation and IllegalCommand (R16, R150). There is no trap:
nothing is saved, no mode changes, no control is transferred (R155), and no state of the buffer changes (R48); so there
is no return from it either (R156). -/
def raise (e : ErrorKind) (s : State) : State := respondAny (errorStatus e) s

/-! ## The transfers -/

/-- The state change of a successful PUT (R84, R85, R86). -/
def storeValue (w : Width) (v : Word) (s : State) : State :=
  ((s.setMem (memWrite s.build s.mem s.wr w v)).setWr (adv s.build s.wr (byteCount w))).setFc (s.fc - byteCount w)

/-- A PUT of width `w` and value `v` (R92, R110 to R112). -/
def put (w : Width) (v : Word) (s : State) : Host.Outcome State Fault Refusal :=
  if putOk s w then .next (respondAny .ok (storeValue w v s)) else .next (raise .capacityViolation s)

/-- What the read port captures for a GET of width `w` (R56, R87). -/
def captured (w : Width) (s : State) : Lanes := readLanes s.build s.mem s.rd w s.draws

/-- The state change of a successful GET (R84, R85), with what the read port captured (R56, R174). -/
def takeValue (w : Width) (s : State) : State :=
  (((s.setRam (captured w s)).setRd (adv s.build s.rd (byteCount w))).setFc (s.fc + byteCount w)).nextDraw

/-- A GET of width `w` (R92, R130 to R132): the response's data is assembled from the captured lanes (R56, R87). -/
def get (w : Width) (s : State) : Host.Outcome State Fault Refusal :=
  if getOk s w then .next (respond .ok (unpack w (captured w s)) (takeValue w s))
  else .next (raise .capacityViolation s)

/-! ## The empty buffer and the clear sequencer -/

/-- The architectural values that INIT and reset give: storage 0, cursors 0, `fc = N` (R37, R100). -/
def emptyBuffer (s : State) : State := (((s.setMem []).setRd 0).setWr 0).setFc s.build.N

/-- A value `clr_ptr` may hold: any value of its AW bits (R35, U4; log 7). -/
def freePtr (s : State) : Nat := Config.anyClrPtr s.draws % 2 ^ cursorBits s.build

/-- The clear sequence starts (R35, R172): busy for `CLR_CYCLES` cycles from here, not at all when that is 0. -/
def startClear (s : State) : State := (s.setClear (decide (0 < s.build.clrCycles)) (freePtr s) 0).nextDraw

end Sys2Proof.Machine
end

