-- ==== Sys2Proof/Machine/Clock.lean ====
section
/-! DEFINITION. The cycle protocol (70_reset_and_hazards.md): the pins of a cycle, acceptance, the reset edge, the
response pipeline, the clear sequence, and the activity of the RAM's ports. -/

namespace Sys2Proof.Machine

/-! ## The pins of the current cycle -/

/-- `rst` in this cycle (R170). -/
def rstPin (s : State) : Bool := s.rstIn.headD false

/-- The command word presented in this cycle, with `cmd_valid = 1`; none when `cmd_valid = 0` (R170). -/
def presentedCmd (s : State) : Option CmdWord := s.cmdIn.head?.join

/-- `cmd_ready`: low while `rst = 1` and in the clear sequence, high in every other cycle (R171, R172). -/
def cmdReady (s : State) : Bool := !rstPin s && !s.clrBusy

/-- The command accepted at the edge that ends this cycle: `rst = 0`, `cmd_valid = 1`, `cmd_ready = 1` (R174). -/
def accepted (s : State) : Option CmdWord := if cmdReady s then presentedCmd s else none

/-- `rsp_valid`: the pending-response register holds a response, and `rst = 0` (R34, R171, R175). -/
def rspValid (s : State) : Bool := s.rspPend && !rstPin s

/-- The output pins of this cycle (R170). The pending-response register drives the response pins in the cycle of its
response (R34, R175); with `rsp_valid = 0` they carry none, and hold free values (R31, R62; log 18). -/
def portOut (s : State) : PortOut :=
  { cmdReady := cmdReady s
    rspValid := rspValid s
    rspStatus := if rspValid s then s.rspSt else Config.anyIdleStatus s.draws
    rspRdata := if rspValid s then s.rspDat else Config.anyIdleRdata s.draws
    stFree := stFree s
    stEmpty := stEmpty s
    stFull := stFull s }

/-! ## The host's side of the handshake -/

/-- The command stream after an edge: an idle cycle has passed; a presented command stays until the edge that accepts it
(R174, R179). -/
def restOfCmds (took : Bool) : List (Option CmdWord) → List (Option CmdWord)
  | [] => []
  | none :: rest => rest
  | some c :: rest => if took then rest else some c :: rest

/-- The inputs move on by one cycle. -/
def consumeInputs (took : Bool) (s : State) : State := s.setInputs s.rstIn.tail (restOfCmds took s.cmdIn)

/-! ## Reset -/

/-- The reset edge (R171): the values of R37, no response pending and none on its way, the clear sequence about to start,
no command accepted. `rsp_st` and `rsp_dat` are unspecified after it: free values (R34, U3; log 6). -/
def resetEdge (s : State) : State :=
  consumeInputs false
    ((startClear
      ((emptyBuffer s).setRsp false (Config.anyRspSt s.draws) (Config.anyRspDat s.draws)
        (List.replicate ((s.build.latRsp : Nat) - 1) none))).setRam (unreadLanes s.draws))

/-! ## A cycle without reset -/

/-- The response pipeline moves on by one cycle (R175): what stands first enters the pending-response register. When
nothing arrives the register holds no response, and its status and data are free values: no outcome is kept after its
response (R31). The last stage is free again (log 8). -/
def shiftResponses (s : State) : State :=
  match s.rspLine.head?.join with
  | some r => s.setRsp true (statusCode r.status) r.rdata ((s.rspLine ++ [none]).tail)
  | none => s.setRsp false (Config.anyRspSt s.draws) (Config.anyRspDat s.draws) ((s.rspLine ++ [none]).tail)

/-- One cycle of the clear sequence (R35, R55, R172): the sequencer writes 0 to its four slots, and stays busy until
`CLR_CYCLES` cycles have passed; `clr_ptr` holds a free value (log 7). DESIGN CHOICE for a build with `0 < CLR_CYCLES
< ceil(N/4)`: it is admitted, and its sequencer reaches the slots below `4 * CLR_CYCLES` alone (log 21). -/
def clearCycle (s : State) : State :=
  (s.setMem (commitLanes s.mem (clearLanes s.build s.clrCycle))).setClear
    (decide (s.clrCycle + 1 < s.build.clrCycles)) (freePtr s) (s.clrCycle + 1)

/-- What every cycle without reset does beside the command it accepts: the inputs move on, the response pipeline moves
on, the clear sequence goes on if it is busy, and the read port's data of the cycle before is gone (R56). -/
def tick (s : State) : State :=
  let t := (shiftResponses (consumeInputs (accepted s).isSome s)).setRam (unreadLanes s.draws)
  (if s.clrBusy then clearCycle t else t).nextDraw

/-! ## The RAM's ports in a cycle -/

/-- The lanes of a transfer's PUT, all disabled when it fails (R55). -/
def putPort (s : State) (w : Width) (v : Word) : List (Option WriteLane) :=
  if putOk s w then putLanes s.build s.wr w v else idleLanes

/-- The write port in this cycle (R55): driven by the clear sequencer while it is busy, by an accepted PUT that succeeds,
by nothing in every other cycle. -/
def writePort (s : State) : List (Option WriteLane) :=
  if s.clrBusy then clearLanes s.build s.clrCycle
  else
    match (accepted s).map decode with
    | some (.put8 v) => putPort s .one (operand8 v)
    | some (.put16 v) => putPort s .two (operand16 v)
    | some (.put32 v) => putPort s .four v
    | _ => idleLanes

/-- `ram_re` in this cycle: 1 when a GET is accepted; it may be 1 for one that fails, and is taken so (R56, U14). -/
def readActive (s : State) : Bool :=
  match (accepted s).map decode with
  | some .get8 => true
  | some .get16 => true
  | some .get32 => true
  | _ => false

/-- Some lane of the write port is enabled in this cycle. -/
def writeActive (s : State) : Bool := (writePort s).any Option.isSome

/-- Both ports active in one cycle: what R57 excludes, and U13 asks a model to fault on. -/
def portConflict (s : State) : Bool := writeActive s && readActive s

/-! ## Presenting a command from outside -/

/-- A command word presented so that the very next edge accepts it: first in the command stream, `rst` low in this cycle,
the clear sequence over (R174; log 3). -/
def presentNow (c : CmdWord) (s : State) : State :=
  (s.setInputs (match s.rstIn with | true :: rest => false :: rest | l => l) (some c :: s.cmdIn)).setClear
    false s.clrPtr s.clrCycle

end Sys2Proof.Machine
end

