-- ==== Sys2Proof/Machine/Get.lean ====
section
/-! DEFINITION. The GET family (43_get.md). -/

namespace Sys2Proof.Machine

/-- GET8 (R130). -/
def execGet8 (s : State) : Host.Outcome State Fault Refusal := get .one s

/-- GET16 (R131). -/
def execGet16 (s : State) : Host.Outcome State Fault Refusal := get .two s

/-- GET32 (R132). It reads `rd` and `fc` alone, never `wr` (R91, C4). -/
def execGet32 (s : State) : Host.Outcome State Fault Refusal := get .four s

end Sys2Proof.Machine
end

