-- ==== Sys2Proof/Machine/Put.lean ====
section
/-! DEFINITION. The PUT family (42_put.md). -/

namespace Sys2Proof.Machine

/-- PUT8 (R110). -/
def execPut8 (v : BitVec 8) (s : State) : Host.Outcome State Fault Refusal := put .one (operand8 v) s

/-- PUT16 (R111). -/
def execPut16 (v : BitVec 16) (s : State) : Host.Outcome State Fault Refusal := put .two (operand16 v) s

/-- PUT32 (R112). -/
def execPut32 (v : BitVec 32) (s : State) : Host.Outcome State Fault Refusal := put .four v s

end Sys2Proof.Machine
end

