-- ==== Sys2Proof/Machine/System.lean ====
section
/-! DEFINITION. The two commands that move no value: INIT (41_initialize.md) and RSVD (30_encoding.md rule R68). -/

namespace Sys2Proof.Machine

/-- INIT (R100): the empty buffer at once, the clear sequence started (R35, R172), OK in every state. -/
def execInit (s : State) : Host.Outcome State Fault Refusal :=
  .next (respondAny .ok (startClear (emptyBuffer s)))

/-- RSVD (R68): always raises IllegalCommand. -/
def execRsvd (s : State) : Host.Outcome State Fault Refusal := .next (raise .illegalCommand s)

end Sys2Proof.Machine
end

