-- ==== Sys2Proof/Machine/Dispatch.lean ====
section
/-! DEFINITION. The meaning of each command, one arm for each row of the opcode table (30_encoding.md rule R63). -/

namespace Sys2Proof.Machine

def exec (i : Instr) (s : State) : Host.Outcome State Fault Refusal :=
  match i with
  | .put8 v => Sys2Proof.Machine.execPut8 v s
  | .put16 v => Sys2Proof.Machine.execPut16 v s
  | .put32 v => Sys2Proof.Machine.execPut32 v s
  | .rsvd => Sys2Proof.Machine.execRsvd s
  | .get8 => Sys2Proof.Machine.execGet8 s
  | .get16 => Sys2Proof.Machine.execGet16 s
  | .get32 => Sys2Proof.Machine.execGet32 s
  | .init => Sys2Proof.Machine.execInit s

end Sys2Proof.Machine
end

