-- ==== Sys2Proof/Machine/Step.lean ====
section
/-! DEFINITION. One step: one rising edge of the clock (70_reset_and_hazards.md rules R170 to R179). -/

namespace Sys2Proof.Machine

/-- One rising edge. With `rst = 1` the reset edge (R171, R179). Else what every cycle does, and at the same edge the
meaning of the command accepted, if there is one (R174). -/
def step (s : State) : Host.Outcome State Fault Refusal :=
  if rstPin s then .next (resetEdge s)
  else if portConflict s then .fault .ramPortConflict
  else
    match accepted s with
    | some c => exec (decode c) (tick s)
    | none => .next (tick s)

/-- The state in which the next edge accepts the command word whose low `nbits` bits are `w` (log 3). -/
def State.withFetchWord (s : State) (nbits w : Nat) : State := presentNow (BitVec.ofNat 35 (w % 2 ^ nbits)) s

end Sys2Proof.Machine
end

