-- ==== Sys2Proof/Safety.lean ====
section
/-! DEFINITION. The terms that statements about the block use: its invariants, the queue it implements and the reference
queue to hold it against, what a command's response is, runs of commands and runs of cycles, and what a safe run is. -/

namespace Sys2Proof.Machine

/-! ## Invariants -/

/-- The buffer's invariant: the ranges of R25, the cursor invariant of R26, and a canonical storage that lists existing
slots only (R40). -/
structure State.BufferOk (s : State) : Prop where
  rd_lt : s.rd < s.build.N
  wr_lt : s.wr < s.build.N
  fc_le : s.fc ≤ s.build.N
  cursors : s.wr = (s.rd + occupied s) % s.build.N
  mem_wf : s.mem.wf
  mem_slots : ∀ c ∈ s.mem, c.1 < s.build.N

/-- The invariant of the whole block: the buffer's; while the clear sequence runs, its cycle number is below
`CLR_CYCLES` and the buffer is the empty one that R37 and R100 give; the response pipeline has its length; the code `11`
is never driven (R67); `clr_ptr` fits its AW bits (R35). -/
structure State.Inv (s : State) : Prop where
  buffer : s.BufferOk
  clear_cycle : s.clrBusy = true → s.clrCycle < s.build.clrCycles
  clear_empty : s.clrBusy = true → s.mem = [] ∧ s.rd = 0 ∧ s.wr = 0 ∧ s.fc = s.build.N
  line_length : s.rspLine.length + 1 = s.build.latRsp
  status_driven : s.rspPend = true → s.rspSt ≠ 0b11#2
  ptr_width : s.clrPtr < 2 ^ cursorBits s.build

/-! ## The queue -/

/-- The queue view `Q` (R28): the occupied bytes, oldest first. -/
def queue (s : State) : List Byte :=
  (List.range (occupied s)).map fun j => s.mem.read (idx s.build s.rd j)

/-- The natural number that bytes stand for, least significant first (R43). -/
def leNat : List Byte → Nat
  | [] => 0
  | b :: rest => b.toNat + 256 * leNat rest

/-- Byte `k` of a natural number, least significant first, for `k < n` (R42). -/
def leBytes (n v : Nat) : List Byte := (List.range n).map fun k => BitVec.ofNat 8 (v / 256 ^ k)

/-- What the reference queue answers to a command. -/
structure FifoAnswer where
  queue : List Byte
  status : Status
  /-- The value got, for a successful GET alone; any data otherwise (R65). -/
  value : Option Nat

/-- A put of bytes to a queue that holds at most `n`. -/
def fifoPut (n : Nat) (q bytes : List Byte) : FifoAnswer :=
  if q.length + bytes.length ≤ n then ⟨q ++ bytes, .ok, none⟩ else ⟨q, .ecap, none⟩

/-- A get of `w` bytes. -/
def fifoGet (q : List Byte) (w : Nat) : FifoAnswer :=
  if w ≤ q.length then ⟨q.drop w, .ok, some (leNat (q.take w))⟩ else ⟨q, .ecap, none⟩

/-- The reference machine: a byte queue of capacity `n` with no cursors, no storage and no wraparound, as R28 describes
each command's effect on `Q`. It shares no definition with the meanings of `exec`. -/
def fifoStep (n : Nat) (q : List Byte) : Instr → FifoAnswer
  | .put8 v => fifoPut n q (leBytes 1 v.toNat)
  | .put16 v => fifoPut n q (leBytes 2 v.toNat)
  | .put32 v => fifoPut n q (leBytes 4 v.toNat)
  | .get8 => fifoGet q 1
  | .get16 => fifoGet q 2
  | .get32 => fifoGet q 4
  | .init => ⟨[], .ok, none⟩
  | .rsvd => ⟨q, .eill, none⟩

/-- The queue after a list of commands. -/
def fifoQueueAfter (n : Nat) (q : List Byte) : List Instr → List Byte
  | [] => q
  | i :: rest => fifoQueueAfter n (fifoStep n q i).queue rest

/-- The answers to a list of commands, in order. -/
def fifoAnswers (n : Nat) (q : List Byte) : List Instr → List (Status × Option Nat)
  | [] => []
  | i :: rest => ((fifoStep n q i).status, (fifoStep n q i).value) :: fifoAnswers n (fifoStep n q i).queue rest

/-- A response's two fields as they stand on the pins, and the reference's answer: the same status, and where the
reference gives a value, that value (R65). -/
def Answers (a : Status × Option Nat) (r : BitVec 2 × Word) : Prop :=
  r.1 = statusCode a.1 ∧ ∀ x, a.2 = some x → r.2.toNat = x

/-! ## Responses -/

/-- `t` is a state whose response pipeline is that of `s` with the response `r` entered at its end: in the
pending-response register itself when there is no stage in front of it (`LAT_RSP = 1`), else in the last stage (R34,
R175). -/
def RespondsWith (s : State) (r : Response) (t : State) : Prop :=
  (s.rspLine = [] →
    t.rspLine = [] ∧ t.rspPend = true ∧ t.rspSt = statusCode r.status ∧ t.rspDat = r.rdata) ∧
  (s.rspLine ≠ [] →
    t.rspLine = s.rspLine.dropLast ++ [some r] ∧
      t.rspPend = s.rspPend ∧ t.rspSt = s.rspSt ∧ t.rspDat = s.rspDat)

/-- The response that entered the pipeline last: status code and data. -/
def newest (s : State) : Option (BitVec 2 × Word) :=
  match s.rspLine.getLast? with
  | some stage => stage.map fun r => (statusCode r.status, r.rdata)
  | none => if s.rspPend then some (s.rspSt, s.rspDat) else none

/-- The response on the pins in this cycle (R175). -/
def presented (s : State) : Option (BitVec 2 × Word) :=
  if rspValid s then some (s.rspSt, s.rspDat) else none

/-- The responses accepted and not yet past the pins, the next to be presented first. -/
def inFlight (s : State) : List (BitVec 2 × Word) :=
  (if s.rspPend then [(s.rspSt, s.rspDat)] else []) ++
    (s.rspLine.filterMap id).map fun r => (statusCode r.status, r.rdata)

/-! ## What a command leaves alone -/

/-- The build, the clear sequencer and the inputs are as before. -/
def SameProtocol (s t : State) : Prop :=
  t.build = s.build ∧ t.clrBusy = s.clrBusy ∧ t.clrPtr = s.clrPtr ∧ t.clrCycle = s.clrCycle ∧
    t.rstIn = s.rstIn ∧ t.cmdIn = s.cmdIn

/-- The architectural state is as before (R48): every byte of the storage, both cursors and the free count. -/
def SameBuffer (s t : State) : Prop :=
  t.mem = s.mem ∧ t.rd = s.rd ∧ t.wr = s.wr ∧ t.fc = s.fc

/-- Two states that differ at most in what free slots hold (R36). -/
def SameButFreeSlots (s t : State) : Prop :=
  t = s.setMem t.mem ∧
    ∀ j < occupied s, t.mem.read (idx s.build s.rd j) = s.mem.read (idx s.build s.rd j)

/-! ## Runs -/

/-- Commands accepted one after another, each at its edge and nothing else happening in between (R181): the responses
that they enter, in order, and the state after them. -/
def runCommands : List Instr → State → List (BitVec 2 × Word) × State
  | [], s => ([], s)
  | i :: rest, s =>
    match exec i s with
    | .next t => ((newest t).toList ++ (runCommands rest t).1, (runCommands rest t).2)
    | .fault _ => ([], s)
    | .refused _ => ([], s)

/-- The state after `k` edges. -/
def afterEdges : Nat → State → State
  | 0, s => s
  | k + 1, s =>
    match step s with
    | .next t => afterEdges k t
    | .fault _ => s
    | .refused _ => s

/-- The commands accepted in the next `k` cycles, in order (R174). -/
def acceptedIn : Nat → State → List Instr
  | 0, _ => []
  | k + 1, s => ((accepted s).map decode).toList ++ acceptedIn k (afterEdges 1 s)

/-- The responses presented in the next `k` cycles, in order (R175). -/
def presentedIn : Nat → State → List (BitVec 2 × Word)
  | 0, _ => []
  | k + 1, s => (presented s).toList ++ presentedIn k (afterEdges 1 s)

/-- `rst` is low in the next `k` cycles. -/
def RstLowFor (k : Nat) (s : State) : Prop := ∀ j < k, s.rstIn.getD j false = false

/-- A run of `k` edges is safe when no edge of it stops (R153, R182). -/
def RunsSafely (k : Nat) (s : State) : Prop := ∀ j < k, ∃ t, step (afterEdges j s) = .next t

end Sys2Proof.Machine
end

