-- ==== Sys2Proof/Certificates/Slice0/Obligations.lean ====
section
/-! DEFINITION. The statements about the block, for the provers. Each names the rules of spec/ it formalises. -/

open Sys2Proof Sys2Proof.Machine

/-! ## Encoding -/

/-- Every command's own word decodes to the command: no bit of an operand is dropped (R60, R63, R64, R72). -/
def Obligations.DecodeEncodeRoundTrip : Prop := ∀ i : Instr, decode (encode i) = i

/-- Encoding what a word decodes to gives the word back with its ignored bits cleared: the op field and the operand
bits that R64 gives the command are kept, and no other bit is (R64, R72). -/
def Obligations.EncodeDecodeClearsIgnoredBits : Prop :=
  ∀ c : CmdWord, encode (decode c) = c &&& (opMask ||| (usedBits (decode c)).setWidth 35)

/-- The opcode map, row by row, whatever `wdata` is, and the match and mask of each row (R63). -/
def Obligations.OpcodeMapRows : Prop :=
  (∀ d : Word,
    decode (cmdWord 0b000#3 d) = .put8 (d.extractLsb' 0 8) ∧
    decode (cmdWord 0b001#3 d) = .put16 (d.extractLsb' 0 16) ∧
    decode (cmdWord 0b010#3 d) = .put32 d ∧
    decode (cmdWord 0b011#3 d) = .rsvd ∧
    decode (cmdWord 0b100#3 d) = .get8 ∧
    decode (cmdWord 0b101#3 d) = .get16 ∧
    decode (cmdWord 0b110#3 d) = .get32 ∧
    decode (cmdWord 0b111#3 d) = .init) ∧
  (∀ (c : CmdWord) (i : Instr), c &&& 0x700000000#35 = matchOf i ↔ opOf (decode c) = opOf i)

/-- Two words with the same op field that agree on the operand bits R64 gives that command are one command: the
ignored bits have no effect (R64, U17). -/
def Obligations.IgnoredBitsHaveNoEffect : Prop :=
  ∀ c c' : CmdWord, opField c = opField c' →
    wdataField c &&& usedBits (decode c) = wdataField c' &&& usedBits (decode c) →
    decode c = decode c' ∧ ∀ s : State, exec (decode c) s = exec (decode c') s

/-- Words written out from R60 and R63 decode to the commands they stand for (95_test_vectors.md V7, R71). -/
def Obligations.SampleWordsDecode : Prop :=
  decode 0x0FFFFFFFF#35 = .put8 0xFF#8 ∧ decode 0x1FFFFFFFF#35 = .put16 0xFFFF#16 ∧
  decode 0x2DDCCBBAA#35 = .put32 0xDDCCBBAA#32 ∧ decode 0x3DEADBEEF#35 = .rsvd ∧
  decode 0x4FFFFFFFF#35 = .get8 ∧ decode 0x500000000#35 = .get16 ∧
  decode 0x600000000#35 = .get32 ∧ decode 0x7FFFFFFFF#35 = .init

/-- The assembler gives one word for each line whose immediate fits, as R72 writes it, and an error, never a
truncation, for every other line (R72, D28). -/
def Obligations.AssemblerFitsOrRejects : Prop :=
  (∀ n, assembleLine (.put8 n) =
    if n ≤ 0xFF then .ok (cmdWord 0b000#3 (BitVec.ofNat 32 n)) else .error .immediateTooWide) ∧
  (∀ n, assembleLine (.put16 n) =
    if n ≤ 0xFFFF then .ok (cmdWord 0b001#3 (BitVec.ofNat 32 n)) else .error .immediateTooWide) ∧
  (∀ n, assembleLine (.put32 n) =
    if n ≤ 0xFFFFFFFF then .ok (cmdWord 0b010#3 (BitVec.ofNat 32 n)) else .error .immediateTooWide) ∧
  assembleLine .get8 = .ok (cmdWord 0b100#3 0) ∧
  assembleLine .get16 = .ok (cmdWord 0b101#3 0) ∧
  assembleLine .get32 = .ok (cmdWord 0b110#3 0) ∧
  assembleLine .init = .ok (cmdWord 0b111#3 0) ∧
  (∀ n, assembleLine (.cmd n) =
    if n ≤ 0x7FFFFFFFF then .ok (BitVec.ofNat 35 n) else .error .immediateTooWide)

/-! ## Units of the datapath -/

/-- The register widths by R10's formulas, that these are the fewest bits that hold the ranges, and the two reference
values of each (R10). `Nat.clog 2` is `ceil(log2 ·)`, `Nat.log 2` is `floor(log2 ·)`. -/
def Obligations.RegisterWidthsAreFewest : Prop :=
  (∀ b : Build, cursorBits b = max 1 (Nat.clog 2 b.N) ∧ countBits b = Nat.log 2 b.N + 1 ∧
    b.N ≤ 2 ^ cursorBits b ∧ 1 ≤ cursorBits b ∧
    (∀ n, 1 ≤ n → b.N ≤ 2 ^ n → cursorBits b ≤ n) ∧
    b.N < 2 ^ countBits b ∧ (∀ n, b.N < 2 ^ n → countBits b ≤ n)) ∧
  cursorBits Build.reference8 = 3 ∧ countBits Build.reference8 = 4 ∧
  cursorBits Build.reference32 = 5 ∧ countBits Build.reference32 = 6

/-- In a command that succeeds the modulo is one conditional subtraction, for a lane and for the cursor's advance
(R89). -/
def Obligations.ModuloIsOneConditionalSubtraction : Prop :=
  ∀ (b : Build) (c k : Nat) (w : Width), byteCount w ≤ b.N → c < b.N → k < byteCount w →
    c + k ≤ 2 * b.N - 2 ∧ c + byteCount w ≤ 2 * b.N - 1 ∧
    idx b c k = (if b.N ≤ c + k then c + k - b.N else c + k) ∧
    adv b c (byteCount w) = (if b.N ≤ c + byteCount w then c + byteCount w - b.N else c + byteCount w)

/-- The wraparound split: with `d = N - c` slots left, an access of width `w` is one segment when `w <= d`, and two
when `d < w`; on a successful access no two of its bytes share a slot (R88). -/
def Obligations.WraparoundSegments : Prop :=
  ∀ (b : Build) (c : Nat) (w : Width), c < b.N →
    (1 ≤ b.N - c ∧ b.N - c ≤ b.N) ∧
    (byteCount w ≤ b.N - c → ∀ k < byteCount w, idx b c k = c + k) ∧
    (byteCount w ≤ b.N → b.N - c < byteCount w →
      (∀ k < b.N - c, idx b c k = c + k) ∧
      (∀ k < byteCount w, b.N - c ≤ k → idx b c k = k - (b.N - c))) ∧
    (byteCount w ≤ b.N → ∀ j < byteCount w, ∀ k < byteCount w, idx b c j = idx b c k → j = k)

/-- The banked realisation: when 4 divides `N`, lane `k` of an access falls in bank `(c + k) mod 4`, so the four lanes
fall in four different banks, in rows that exist; and R59's example, where 4 does not divide `N` and two lanes share a
bank (R59). -/
def Obligations.BankedLanesAreDistinct : Prop :=
  (∀ (b : Build) (c : Nat), b.N % 4 = 0 → c < b.N →
    (∀ k < 4, bankOf (idx b c k) = (c + k) % 4 ∧ bankRow (idx b c k) < b.N / 4) ∧
    (∀ j < 4, ∀ k < 4, bankOf (idx b c j) = bankOf (idx b c k) → j = k)) ∧
  (∀ b : Build, b.N = 5 →
    allLanes.map (idx b 3) = [3, 4, 0, 1] ∧ allLanes.map (bankOf ∘ idx b 3) = [3, 0, 0, 1])

/-- `MemWrite` then `MemRead` at the same cursor: the little-endian sum of the slots is the value's low `8w` bits, and
every other slot is as before (R15, R42, R43). -/
def Obligations.MemWriteThenMemRead : Prop :=
  ∀ (b : Build) (m : Memory) (c : Nat) (w : Width) (v : Word), byteCount w ≤ b.N →
    leNat ((List.range (byteCount w)).map fun k => (memWrite b m c w v).read (idx b c k)) =
      v.toNat % 256 ^ byteCount w ∧
    ∀ a, (∀ k < byteCount w, idx b c k ≠ a) → (memWrite b m c w v).read a = m.read a

/-- The canonical form of the storage is unique: two canonical storages that read alike are equal (the model's own
form, log 12). -/
def Obligations.StorageFormIsUnique : Prop :=
  ∀ m m' : Memory, m.wf → m'.wf → (∀ a, m.read a = m'.read a) → m = m'

/-! ## The commands -/

/-- PUT8 (R110): its operand, its effect when `fc >= 1`, its failure when `fc < 1`. The model's own: in which stage
the response stands after the edge (log 8), and that `exec` leaves the sequencer, the inputs and the read port's data
to `tick` (logs 2, 10, 19). -/
def Obligations.Put8Rule : Prop :=
  (∀ c : CmdWord, opField c = 0b000#3 → decode c = .put8 ((wdataField c).extractLsb' 0 8)) ∧
  (∀ (v : BitVec 8) (s : State), 1 ≤ s.fc →
    ∃ t, exec (.put8 v) s = .next t ∧
      (∀ a, t.mem.read a = if a = idx s.build s.wr 0 then v else s.mem.read a) ∧
      t.wr = (s.wr + 1) % s.build.N ∧ t.fc = s.fc - 1 ∧ t.rd = s.rd ∧ (stFull t = true ↔ s.fc = 1) ∧
      SameProtocol s t ∧ t.ramRdata = s.ramRdata ∧ ∃ d, RespondsWith s ⟨.ok, d⟩ t) ∧
  (∀ (v : BitVec 8) (s : State), s.fc < 1 →
    ∃ t, exec (.put8 v) s = .next t ∧
      SameBuffer s t ∧ SameProtocol s t ∧ t.ramRdata = s.ramRdata ∧ ∃ d, RespondsWith s ⟨.ecap, d⟩ t)

/-- PUT16 (R111): low byte first; both bytes or neither. `fc <= N` is the range of R23. The model's own: in which
stage the response stands after the edge (log 8), and that `exec` leaves the sequencer, the inputs and the read port's
data to `tick` (logs 2, 10, 19). -/
def Obligations.Put16Rule : Prop :=
  (∀ c : CmdWord, opField c = 0b001#3 → decode c = .put16 ((wdataField c).extractLsb' 0 16)) ∧
  (∀ (v : BitVec 16) (s : State), 2 ≤ s.fc → s.fc ≤ s.build.N →
    ∃ t, exec (.put16 v) s = .next t ∧
      (∀ a, t.mem.read a =
        if a = idx s.build s.wr 0 then v.extractLsb' 0 8
        else if a = idx s.build s.wr 1 then v.extractLsb' 8 8
        else s.mem.read a) ∧
      t.wr = (s.wr + 2) % s.build.N ∧ t.fc = s.fc - 2 ∧ t.rd = s.rd ∧
      SameProtocol s t ∧ t.ramRdata = s.ramRdata ∧ ∃ d, RespondsWith s ⟨.ok, d⟩ t) ∧
  (∀ (v : BitVec 16) (s : State), s.fc < 2 →
    ∃ t, exec (.put16 v) s = .next t ∧
      SameBuffer s t ∧ SameProtocol s t ∧ t.ramRdata = s.ramRdata ∧ ∃ d, RespondsWith s ⟨.ecap, d⟩ t)

/-- PUT32 (R112): four bytes in ascending significance; all or none. `fc <= N` is the range of R23. The model's own:
in which stage the response stands after the edge (log 8), and that `exec` leaves the sequencer, the inputs and the
read port's data to `tick` (logs 2, 10, 19). -/
def Obligations.Put32Rule : Prop :=
  (∀ c : CmdWord, opField c = 0b010#3 → decode c = .put32 (wdataField c)) ∧
  (∀ (v : BitVec 32) (s : State), 4 ≤ s.fc → s.fc ≤ s.build.N →
    ∃ t, exec (.put32 v) s = .next t ∧
      (∀ a, t.mem.read a =
        if a = idx s.build s.wr 0 then v.extractLsb' 0 8
        else if a = idx s.build s.wr 1 then v.extractLsb' 8 8
        else if a = idx s.build s.wr 2 then v.extractLsb' 16 8
        else if a = idx s.build s.wr 3 then v.extractLsb' 24 8
        else s.mem.read a) ∧
      t.wr = (s.wr + 4) % s.build.N ∧ t.fc = s.fc - 4 ∧ t.rd = s.rd ∧
      SameProtocol s t ∧ t.ramRdata = s.ramRdata ∧ ∃ d, RespondsWith s ⟨.ok, d⟩ t) ∧
  (∀ (v : BitVec 32) (s : State), s.fc < 4 →
    ∃ t, exec (.put32 v) s = .next t ∧
      SameBuffer s t ∧ SameProtocol s t ∧ t.ramRdata = s.ramRdata ∧ ∃ d, RespondsWith s ⟨.ecap, d⟩ t)

/-- GET8 (R130): the byte at the read cursor, zero-extended; the storage is not changed. `N - fc >= 1` is written `fc
+ 1 <= N`, exact in every state. The model's own: in which stage the response stands after the edge (log 8), that its
data stands there at once and a failed GET leaves the read port's data as it was (log 10), and that `exec` leaves the
sequencer and the inputs to `tick` (logs 2, 19). -/
def Obligations.Get8Rule : Prop :=
  (∀ c : CmdWord, opField c = 0b100#3 → decode c = .get8) ∧
  (∀ s : State, s.fc + 1 ≤ s.build.N →
    ∃ t, exec .get8 s = .next t ∧
      RespondsWith s ⟨.ok, BitVec.ofNat 32 (s.mem.read (idx s.build s.rd 0)).toNat⟩ t ∧
      t.rd = (s.rd + 1) % s.build.N ∧ t.fc = s.fc + 1 ∧ t.wr = s.wr ∧
      (stEmpty t = true ↔ s.fc + 1 = s.build.N) ∧
      (∀ a, t.mem.read a = s.mem.read a) ∧ SameProtocol s t) ∧
  (∀ s : State, s.build.N < s.fc + 1 →
    ∃ t, exec .get8 s = .next t ∧
      SameBuffer s t ∧ SameProtocol s t ∧ t.ramRdata = s.ramRdata ∧ ∃ d, RespondsWith s ⟨.ecap, d⟩ t)

/-- GET16 (R131): two bytes, the one at the read cursor least significant; a failed GET16 consumes nothing. The
model's own: in which stage the response stands after the edge (log 8), that its data stands there at once and a
failed GET leaves the read port's data as it was (log 10), and that `exec` leaves the sequencer and the inputs to
`tick` (logs 2, 19). -/
def Obligations.Get16Rule : Prop :=
  (∀ c : CmdWord, opField c = 0b101#3 → decode c = .get16) ∧
  (∀ s : State, s.fc + 2 ≤ s.build.N →
    ∃ t, exec .get16 s = .next t ∧
      RespondsWith s
        ⟨.ok, BitVec.ofNat 32 ((s.mem.read (idx s.build s.rd 0)).toNat +
          2 ^ 8 * (s.mem.read (idx s.build s.rd 1)).toNat)⟩ t ∧
      t.rd = (s.rd + 2) % s.build.N ∧ t.fc = s.fc + 2 ∧ t.wr = s.wr ∧
      (∀ a, t.mem.read a = s.mem.read a) ∧ SameProtocol s t) ∧
  (∀ s : State, s.build.N < s.fc + 2 →
    ∃ t, exec .get16 s = .next t ∧
      SameBuffer s t ∧ SameProtocol s t ∧ t.ramRdata = s.ramRdata ∧ ∃ d, RespondsWith s ⟨.ecap, d⟩ t)

/-- GET32 (R132): four bytes, each 8 bits higher than the one before it; `wr` plays no part. The model's own: in which
stage the response stands after the edge (log 8), that its data stands there at once and a failed GET leaves the read
port's data as it was (log 10), and that `exec` leaves the sequencer and the inputs to `tick` (logs 2, 19). -/
def Obligations.Get32Rule : Prop :=
  (∀ c : CmdWord, opField c = 0b110#3 → decode c = .get32) ∧
  (∀ s : State, s.fc + 4 ≤ s.build.N →
    ∃ t, exec .get32 s = .next t ∧
      RespondsWith s
        ⟨.ok, BitVec.ofNat 32 ((s.mem.read (idx s.build s.rd 0)).toNat +
          2 ^ 8 * (s.mem.read (idx s.build s.rd 1)).toNat +
          2 ^ 16 * (s.mem.read (idx s.build s.rd 2)).toNat +
          2 ^ 24 * (s.mem.read (idx s.build s.rd 3)).toNat)⟩ t ∧
      t.rd = (s.rd + 4) % s.build.N ∧ t.fc = s.fc + 4 ∧ t.wr = s.wr ∧
      (∀ a, t.mem.read a = s.mem.read a) ∧ SameProtocol s t) ∧
  (∀ s : State, s.build.N < s.fc + 4 →
    ∃ t, exec .get32 s = .next t ∧
      SameBuffer s t ∧ SameProtocol s t ∧ t.ramRdata = s.ramRdata ∧ ∃ d, RespondsWith s ⟨.ecap, d⟩ t)

/-- INIT (R100): in every state, the empty buffer, the status outputs of one, the clear sequence started, OK; through
the clear sequence `cmd_ready` is low and the buffer stays as it is, so the next command sees it. The model's own:
that the storage is 0 through the clear sequence (log 9), the cycle counter (log 7), in which stage the response
stands after the edge (log 8), and that `exec` leaves the inputs and the read port's data to `tick` (logs 2, 10, 19).
-/
def Obligations.InitRule : Prop :=
  (∀ c : CmdWord, opField c = 0b111#3 → decode c = .init) ∧
  (∀ s : State, ∃ t, exec .init s = .next t ∧
    (∀ a, t.mem.read a = 0) ∧ t.rd = 0 ∧ t.wr = 0 ∧ t.fc = s.build.N ∧
    stEmpty t = true ∧ stFull t = false ∧ stFree t = s.build.N ∧
    t.clrBusy = decide (0 < s.build.clrCycles) ∧ t.clrCycle = 0 ∧
    t.build = s.build ∧ t.ramRdata = s.ramRdata ∧ t.rstIn = s.rstIn ∧ t.cmdIn = s.cmdIn ∧
    (∃ d, RespondsWith s ⟨.ok, d⟩ t) ∧
    ∀ j ≤ s.build.clrCycles, RstLowFor j t →
      SameBuffer t (afterEdges j t) ∧ (j < s.build.clrCycles → cmdReady (afterEdges j t) = false))

/-- RSVD (R68): in every state, with every `wdata`, EILL and no state change. The model's own: in which stage the
response stands after the edge (log 8), and that `exec` leaves the sequencer, the inputs and the read port's data to
`tick` (logs 2, 10, 19). -/
def Obligations.RsvdRule : Prop :=
  (∀ c : CmdWord, c &&& 0x700000000#35 = 0x300000000#35 ↔ decode c = .rsvd) ∧
  (∀ s : State, ∃ t, exec .rsvd s = .next t ∧
    SameBuffer s t ∧ SameProtocol s t ∧ t.ramRdata = s.ramRdata ∧ ∃ d, RespondsWith s ⟨.eill, d⟩ t)

/-- INIT from any two states of one build reaches the same buffer, the one of the reset state, and a second INIT
changes nothing more (R101). -/
def Obligations.InitIsIdempotentAndTotal : Prop :=
  ∀ s : State, ∃ t, exec .init s = .next t ∧ SameBuffer (State.resetOf s.build) t ∧
    ∃ u, exec .init t = .next u ∧ SameBuffer t u

/-- A command responds ECAP exactly in the cases of R151's table (R151). -/
def Obligations.CapacityViolationExactly : Prop :=
  ∀ (i : Instr) (s : State), ∃ t r, exec i s = .next t ∧ newest t = some r ∧
    (r.1 = 0b01#2 ↔
      match i with
      | .put8 _ => s.fc < 1
      | .put16 _ => s.fc < 2
      | .put32 _ => s.fc < 4
      | .get8 => (s.build.N : Int) - s.fc < 1
      | .get16 => (s.build.N : Int) - s.fc < 2
      | .get32 => (s.build.N : Int) - s.fc < 4
      | .rsvd => False
      | .init => False)

/-- A command responds EILL exactly when its op field is `011`, whatever the state and `wdata` (R152). -/
def Obligations.IllegalCommandExactly : Prop :=
  ∀ (c : CmdWord) (s : State), ∃ t r, exec (decode c) s = .next t ∧ newest t = some r ∧
    (r.1 = 0b10#2 ↔ opField c = 0b011#3)

/-- Every command answers with one of three status codes, and one that does not answer OK changes no architectural
state (R48, R67, R150). -/
def Obligations.ErrorsChangeNothing : Prop :=
  ∀ (i : Instr) (s : State), ∃ t r, exec i s = .next t ∧ newest t = some r ∧
    (r.1 = 0b00#2 ∨ r.1 = 0b01#2 ∨ r.1 = 0b10#2) ∧ (r.1 ≠ 0b00#2 → SameBuffer s t)

/-- Every GET fails on an empty buffer and every PUT on a buffer with too little space, and nothing changes (R96). -/
def Obligations.BoundaryFailures : Prop :=
  (∀ (s : State) (w : Width), s.fc = s.build.N →
    ∃ t d, exec (decodeGet w) s = .next t ∧ newest t = some (0b01#2, d) ∧ SameBuffer s t) ∧
  (∀ (s : State) (w : Width) (v : Word), s.fc < byteCount w →
    ∃ t d, exec (decodePut w v) s = .next t ∧ newest t = some (0b01#2, d) ∧ SameBuffer s t)

/-! ## The buffer as a queue -/

/-- Every command takes a state that meets R25 and R26 to a state that meets them, with the storage canonical (R90).
The canonical form of the storage is the model's own (log 12). -/
def Obligations.CommandsKeepBufferInvariant : Prop :=
  ∀ (i : Instr) (s : State), s.BufferOk → ∃ t, exec i s = .next t ∧ t.BufferOk

/-- Seen as a byte queue, of length `occ`, the block is the reference queue: a PUT appends its bytes, least
significant first, a GET removes and returns the oldest, INIT empties, a failure changes nothing; and each response is
the reference's (R28). -/
def Obligations.CommandsRefineByteQueue : Prop :=
  ∀ (i : Instr) (s : State), s.BufferOk → (queue s).length = s.build.N - s.fc ∧ ∃ t r, exec i s = .next t ∧
    queue t = (fifoStep s.build.N (queue s) i).queue ∧ newest t = some r ∧
    Answers ((fifoStep s.build.N (queue s) i).status, (fifoStep s.build.N (queue s) i).value) r

/-- FIFO order of one width: on an empty buffer, any values that fit, put one after another, come back in that order
(R94; the buffer is empty before the first PUT, as C8 and R28 require, log 20). -/
def Obligations.SameWidthFifoOrder : Prop :=
  ∀ (s : State) (w : Width) (vs : List Word), s.BufferOk → s.fc = s.build.N →
    vs.length * byteCount w ≤ s.build.N →
    (runCommands (vs.map (decodePut w) ++ List.replicate vs.length (decodeGet w)) s).1.drop vs.length =
      vs.map fun v => (0b00#2, BitVec.ofNat 32 (v.toNat % 256 ^ byteCount w))

/-- Round trip: on an empty buffer, at any cursor position, a PUT of width `w` succeeds and a GET of width `w` after
it returns the value, zero-extended; the buffer is empty again (R95). -/
def Obligations.PutGetRoundTrip : Prop :=
  ∀ (s : State) (w : Width) (v : Word), s.BufferOk → s.fc = s.build.N → byteCount w ≤ s.build.N →
    ∃ d, (runCommands [decodePut w v, decodeGet w] s).1 =
        [(0b00#2, d), (0b00#2, BitVec.ofNat 32 (v.toNat % 256 ^ byteCount w))] ∧
      (runCommands [decodePut w v, decodeGet w] s).2.fc = s.build.N

/-- Widths mix over one byte stream: bytes come out in the order they went in, whatever widths put them and get them
(R45's two examples, for every value). -/
def Obligations.MixedWidthsShareOneStream : Prop :=
  (∀ (s : State) (x : BitVec 8) (y : BitVec 16), s.BufferOk → s.fc = s.build.N → 3 ≤ s.build.N →
    (runCommands [.put8 x, .put16 y, .get8, .get8, .get8] s).1.drop 2 =
      [(0b00#2, x.setWidth 32), (0b00#2, (y.extractLsb' 0 8).setWidth 32),
        (0b00#2, (y.extractLsb' 8 8).setWidth 32)]) ∧
  (∀ (s : State) (v : BitVec 32), s.BufferOk → s.fc = s.build.N → 4 ≤ s.build.N →
    (runCommands [.put32 v, .get16, .get16] s).1.drop 1 =
      [(0b00#2, (v.extractLsb' 0 16).setWidth 32), (0b00#2, (v.extractLsb' 16 16).setWidth 32)])

/-- Empty and full: empty, and `st_empty`, exactly when `fc = N`; full, and `st_full`, exactly when `fc = 0`; the
cursors are equal in both cases, and in no other, so that they alone cannot tell the two apart (R27). -/
def Obligations.EmptyAndFull : Prop :=
  ∀ s : State, s.BufferOk →
    (queue s = [] ↔ s.fc = s.build.N) ∧ ((queue s).length = s.build.N ↔ s.fc = 0) ∧
    (stEmpty s = true ↔ s.fc = s.build.N) ∧ (stFull s = true ↔ s.fc = 0) ∧
    (s.rd = s.wr ↔ s.fc = s.build.N ∨ s.fc = 0)

/-- The status outputs are functions of `fc` alone, `st_free` fits its `FW` bits, and each has the reset value R32
gives, in every build (R32). -/
def Obligations.StatusOutputsFollowFreeCount : Prop :=
  (∀ s : State, (portOut s).stFree = s.fc ∧
    ((portOut s).stEmpty = true ↔ s.fc = s.build.N) ∧ ((portOut s).stFull = true ↔ s.fc = 0)) ∧
  (∀ s : State, s.BufferOk → (portOut s).stFree < 2 ^ countBits s.build) ∧
  (∀ b : Build, (portOut (State.resetOf b)).stFree = b.N ∧
    (portOut (State.resetOf b)).stEmpty = true ∧ (portOut (State.resetOf b)).stFull = false)

/-- The response word: status in bits 33..32, data in bits 31..0, with the codes of R67 (R62, R67). -/
def Obligations.ResponseWordFields : Prop :=
  (∀ r : Response, (responseWord r).extractLsb' 32 2 = statusCode r.status ∧
    (responseWord r).extractLsb' 0 32 = r.rdata) ∧
  statusCode .ok = 0b00#2 ∧ statusCode .ecap = 0b01#2 ∧ statusCode .eill = 0b10#2 ∧
  ∀ st, statusCode st ≠ 0b11#2

/-! ## The machine -/

/-- Every build's reset state meets the invariant (R37, R25, R26). The model's own parts of the invariant: the
canonical storage (log 12), the cycle counter (log 7), the empty storage through the clear sequence (log 9), the
pipeline's length (log 8), and the reset value 0 of `clrPtr` (log 4). -/
def Obligations.ResetMeetsInvariant : Prop := ∀ b : Build, (State.resetOf b).Inv

/-- Every edge keeps the invariant, in every state that meets it: with reset, with a command, in the clear sequence,
or idle (R25, R26, R90). The model's own parts of the invariant: the canonical storage (log 12), the empty storage
through the clear sequence (log 9), the cycle counter (log 7) and the pipeline's length (log 8). -/
def Obligations.StepKeepsInvariant : Prop := ∀ s : State, s.Inv → ∃ t, step s = .next t ∧ t.Inv

/-- No edge ever stops the block: no fault, no refusal, in any state at all (R71, R153, R182, R57). The fault that
could stop it is the model's own, as U13 asks (log 13). -/
def Obligations.StepNeverStops : Prop :=
  (∀ s : State, ∃ t, step s = .next t) ∧ ∀ (k : Nat) (s : State), RunsSafely k s

/-- An edge that accepts a command word runs the command it decodes to, on the state in which the inputs have moved
on, the response pipeline has moved on, and all else that a command reads is as before; and `withFetchWord` makes the
next edge accept its word (R92, R174). The model's own: one edge as `tick` and then `exec` (log 19), the input streams
(log 2), the response stages (log 8), the cycle counter (log 7) and `withFetchWord` (log 3). -/
def Obligations.StepRunsDecodedCommand : Prop :=
  (∀ (s : State) (c : CmdWord), accepted s = some c →
    step s = exec (decode c) (tick s) ∧
    SameBuffer s (tick s) ∧ (tick s).build = s.build ∧
    (tick s).clrBusy = s.clrBusy ∧ (tick s).clrPtr = s.clrPtr ∧ (tick s).clrCycle = s.clrCycle ∧
    (tick s).rstIn = s.rstIn.tail ∧ some c :: (tick s).cmdIn = s.cmdIn ∧
    (tick s).rspLine = (s.rspLine ++ [none]).tail) ∧
  (∀ (s : State) (n w : Nat),
    accepted (s.withFetchWord n w) = some (BitVec.ofNat 35 (w % 2 ^ n)))

/-- What changes each register and the storage at an edge: `rd` only a successful GET, `wr` only a successful PUT,
`fc` only a successful transfer, the storage only a successful PUT, beside INIT and reset, and the clear sequencer for
the storage (R20, R21, R22, R23). -/
def Obligations.OnlyTheirCommandsWriteRegisters : Prop :=
  ∀ s t : State, step s = .next t → rstPin s = false →
    (∀ c, accepted s = some c → decode c ≠ .init) →
    let isGet := ∃ c w, accepted s = some c ∧ decode c = decodeGet w ∧ s.fc + byteCount w ≤ s.build.N
    let isPut := ∃ c w v, accepted s = some c ∧ decode c = decodePut w v ∧ byteCount w ≤ s.fc
    (t.rd ≠ s.rd → isGet) ∧ (t.wr ≠ s.wr → isPut) ∧ (t.fc ≠ s.fc → isGet ∨ isPut) ∧
    (t.mem ≠ s.mem → isPut ∨ s.clrBusy = true)

/-- No edge changes the build: `N`, `LAT_RSP` and `CLR_CYCLES` are fixed (R9, R33; that they stand in the state is the
model's choice, log 1). -/
def Obligations.BuildNeverChanges : Prop := ∀ s t : State, step s = .next t → t.build = s.build

/-- The reset edge: in any state, the values of R37, no response pending or on its way, no command accepted, and while
`rst = 1` neither `cmd_ready` nor `rsp_valid`; the command presented stays presented (R171, R178, R179). The model's own:
the input streams and how a command stays presented in them (log 2), and the cycle counter (log 7). -/
def Obligations.ResetEdgeValues : Prop :=
  ∀ s : State, rstPin s = true →
    cmdReady s = false ∧ rspValid s = false ∧ accepted s = none ∧
    ∃ t, step s = .next t ∧
      (∀ a, t.mem.read a = 0) ∧ t.rd = 0 ∧ t.wr = 0 ∧ t.fc = s.build.N ∧
      t.rspPend = false ∧ inFlight t = [] ∧
      t.clrBusy = decide (0 < s.build.clrCycles) ∧ t.clrCycle = 0 ∧
      t.build = s.build ∧ t.rstIn = s.rstIn.tail ∧
      (∀ c, presentedCmd s = some c → t.cmdIn = s.cmdIn)

/-- Reset wins over a command presented in the same cycle, and the command, held by the host, is accepted in the cycle
after the clear sequence, not before (R171, R172, R174, R179). That the host holds a command is how the model reads
its command stream (R174; log 2). -/
def Obligations.ResetHoldsPresentedCommand : Prop :=
  ∀ (s : State) (c : CmdWord), rstPin s = true → presentedCmd s = some c →
    (∀ j, 1 ≤ j → j ≤ s.build.clrCycles + 1 → s.rstIn.getD j false = false) →
    (∀ j ≤ s.build.clrCycles, accepted (afterEdges j s) = none) ∧
    accepted (afterEdges (s.build.clrCycles + 1) s) = some c

/-- The clear sequence after an INIT: `cmd_ready` is low for exactly `CLR_CYCLES` cycles, then high, as long as `rst`
stays low (R172). -/
def Obligations.ClearSequenceLastsClrCycles : Prop :=
  ∀ s t : State, exec .init s = .next t → RstLowFor (t.build.clrCycles + 1) t →
    (∀ j < t.build.clrCycles, cmdReady (afterEdges j t) = false) ∧
    cmdReady (afterEdges t.build.clrCycles t) = true

/-- The sequencer does clear the storage: started on any contents, after `CLR_CYCLES` cycles every slot is 0, if
`CLR_CYCLES` is at least the reference value `ceil(N/4)` (R35, R55, R172). The cycle counter and the builds with a
smaller `CLR_CYCLES` are the model's own (log 7, log 21). -/
def Obligations.ClearSequenceZeroesStorage : Prop :=
  ∀ s : State, s.clrBusy = true → s.clrCycle = 0 → s.build.N ≤ 4 * s.build.clrCycles →
    RstLowFor s.build.clrCycles s →
    ∀ a < s.build.N, (afterEdges s.build.clrCycles s).mem.read a = 0

/-- Latency: the response of a command accepted in this cycle is on the pins `LAT_RSP` cycles later, as long as `rst`
stays low (R175). The stages between acceptance and the pins are the model's own (log 8). -/
def Obligations.ResponseAfterLatency : Prop :=
  ∀ (s : State) (c : CmdWord), s.Inv → accepted s = some c → RstLowFor ((s.build.latRsp : Nat) + 1) s →
    ∃ r, newest (afterEdges 1 s) = some r ∧ presented (afterEdges s.build.latRsp s) = some r

/-- The write port and the read port are never both active in one cycle, in any state: a PUT leaves the read port
idle, a GET the write port, and while the clear sequencer runs no command is accepted (R57). -/
def Obligations.PortsNeverBothActive : Prop :=
  ∀ s : State, ¬(writeActive s = true ∧ readActive s = true) ∧
    (∀ c w v, accepted s = some c → decode c = decodePut w v → readActive s = false) ∧
    (∀ c w, accepted s = some c → decode c = decodeGet w → writeActive s = false) ∧
    (s.clrBusy = true → cmdReady s = false ∧ accepted s = none ∧ readActive s = false)

/-- Outside reset and INIT the storage changes exactly by what the write port's enabled lanes write at the edge,
whether a PUT or the clear sequencer drives them; and the enabled lanes' slots are distinct and exist (R55). That the
new storage is the same list, not only the same bytes (log 12), and what it holds through the clear sequence (log 9),
are the model's own. -/
def Obligations.StorageChangesThroughWritePort : Prop :=
  (∀ s t : State, rstPin s = false → (∀ c, accepted s = some c → decode c ≠ .init) → step s = .next t →
    t.mem = commitLanes s.mem (writePort s)) ∧
  (∀ s : State, s.BufferOk →
    ((writePort s).filterMap id).Pairwise (fun l l' => l.addr ≠ l'.addr) ∧
    ∀ l, some l ∈ writePort s → l.addr < s.build.N)

/-- In the cycle after an accepted GET that succeeds the read port's enabled lanes hold the bytes of their slots as
they stood before the edge, and the response's data is assembled from them (R56, R87). That the data is at hand at the
acceptance edge, not a cycle later, is the model's own (log 10). -/
def Obligations.ReadPortCapturesSlots : Prop :=
  ∀ (s : State) (c : CmdWord) (w : Width), accepted s = some c → decode c = decodeGet w →
    s.fc + byteCount w ≤ s.build.N →
    ∃ t, step s = .next t ∧
      (∀ k < byteCount w, laneByte t.ramRdata k = s.mem.read (idx s.build s.rd k)) ∧
      ∃ d, newest t = some (0b00#2, d) ∧
        d.toNat = leNat ((List.range (byteCount w)).map fun k => laneByte t.ramRdata k)

/-- Idle: with no reset, no command accepted and no clear sequence, the block keeps all architectural state and takes
no response in (R164). The stages a response passes are the model's own (log 8). -/
def Obligations.IdleKeepsState : Prop :=
  ∀ s : State, rstPin s = false → accepted s = none → s.clrBusy = false →
    ∃ t, step s = .next t ∧ SameBuffer s t ∧ t.clrBusy = false ∧ t.build = s.build ∧
      inFlight t = (if s.rspPend then (inFlight s).tail else inFlight s)

/-- The cycle protocol refines the commands taken one at a time: over any number of cycles without reset, from any
state that meets the invariant, the queue is the reference queue after the accepted commands, and the responses
presented, with those still on their way, are those that were on their way before and then the reference's answers,
one for each accepted command, in order (R51, R62, R175, R176, R181). What the host drives is the model's pair of
input streams (log 2). The stages in which responses are in flight are the model's own (log 8). -/
def Obligations.CycleProtocolRefinesCommands : Prop :=
  ∀ (k : Nat) (s : State), s.Inv → RstLowFor k s →
    queue (afterEdges k s) = fifoQueueAfter s.build.N (queue s) (acceptedIn k s) ∧
    ∃ rs, presentedIn k s ++ inFlight (afterEdges k s) = inFlight s ++ rs ∧
      List.Forall₂ Answers (fifoAnswers s.build.N (queue s) (acceptedIn k s)) rs

/-- What a free slot holds cannot be observed: two states that differ in free slots alone show the same pins in every
cycle from then on, reset or not (R36). Where the spec gives a pin no value, that both runs show the same one is the
model's choice (log 14, log 18). -/
def Obligations.FreeSlotsCannotBeObserved : Prop :=
  ∀ (k : Nat) (s u : State), s.Inv → SameButFreeSlots s u →
    portOut (afterEdges k s) = portOut (afterEdges k u)
end

