-- ==== Sys2Proof/Laws/Memory.lean ====
section
/-! SUPPORT. The laws of the storage: what a read sees after a write, that every operation keeps the canonical form, and
what the lanes of the RAM's write port do at an edge. -/

namespace Sys2Proof

/-- There is at least one slot (R9). -/
theorem Build.N_pos (b : Build) : 0 < b.N := b.cap.pos

end Sys2Proof

namespace Sys2Proof.Machine

/-! ## Reading after writing -/

@[simp] theorem Memory.read_nil (a : Nat) : Memory.read [] a = 0 := rfl

theorem Memory.read_clear (m : Memory) (a x : Nat) :
    Memory.read (Memory.clear m a) x = if x = a then 0 else Memory.read m x := by
  induction m with
  | nil => simp [Memory.clear]
  | cons c rest ih =>
    obtain ⟨b, y⟩ := c
    unfold Memory.clear at ih ⊢
    rw [List.filter_cons]
    by_cases hb : b = a
    · simp [hb, Memory.read]; grind
    · simp [hb, Memory.read]; grind

theorem Memory.read_insert (m : Memory) (a : Nat) (v : Byte) (x : Nat) (fresh : ∀ c ∈ m, c.1 ≠ a) :
    Memory.read (Memory.insert m a v) x = if x = a then v else Memory.read m x := by
  induction m with
  | nil => simp [Memory.insert, Memory.read, blankByte]
  | cons c rest ih =>
    obtain ⟨b, y⟩ := c
    have hb : b ≠ a := fresh (b, y) (by simp)
    have hr := ih fun c hc => fresh c (by simp [hc])
    unfold Memory.insert
    split
    · simp [Memory.read]
    · simp only [Memory.read, hr]; grind

theorem Memory.clear_fresh (m : Memory) (a : Nat) : ∀ c ∈ Memory.clear m a, c.1 ≠ a :=
  fun _ hc => of_decide_eq_true (List.mem_filter.mp hc).2

/-- A read after a write to the same slot gives the value written; a write leaves every other slot alone. -/
theorem Memory.read_write (m : Memory) (a : Nat) (v : Byte) (x : Nat) :
    Memory.read (Memory.write m a v) x = if x = a then v else Memory.read m x := by
  unfold Memory.write
  split
  · next h => rw [Memory.read_clear, h]; rfl
  · rw [Memory.read_insert _ _ _ _ (Memory.clear_fresh m a), Memory.read_clear]; grind

/-! ## The canonical form -/

theorem Memory.wf_nil : Memory.wf [] := ⟨List.Pairwise.nil, by simp⟩

theorem Memory.clear_wf {m : Memory} (h : m.wf) (a : Nat) : (Memory.clear m a).wf :=
  ⟨h.1.filter _, fun c hc => h.2 c (List.mem_filter.mp hc).1⟩

theorem Memory.mem_insert {m : Memory} {a : Nat} {v : Byte} {c : Host.Cell} :
    c ∈ Memory.insert m a v ↔ c = (a, v) ∨ c ∈ m := by
  induction m with
  | nil => simp [Memory.insert]
  | cons d rest ih =>
    obtain ⟨b, y⟩ := d
    unfold Memory.insert
    split <;> simp [ih]; tauto

theorem Memory.insert_wf {m : Memory} (h : m.wf) {a : Nat} {v : Byte} (hv : v ≠ 0)
    (fresh : ∀ c ∈ m, c.1 ≠ a) : (Memory.insert m a v).wf := by
  refine ⟨?_, fun c hc => ?_⟩
  · induction m with
    | nil => simp [Memory.insert]
    | cons d rest ih =>
      obtain ⟨b, y⟩ := d
      have hp := List.pairwise_cons.mp h.1
      have hrest : Memory.wf rest := ⟨hp.2, fun c hc => h.2 c (by simp [hc])⟩
      have hba : b ≠ a := fresh (b, y) (by simp)
      unfold Memory.insert
      split
      · next hlt =>
        refine List.pairwise_cons.mpr ⟨fun c hc => ?_, h.1⟩
        rcases List.mem_cons.mp hc with rfl | hc
        · exact hlt
        · exact Nat.lt_trans hlt (hp.1 c hc)
      · next hge =>
        refine List.pairwise_cons.mpr ⟨fun c hc => ?_, ih hrest fun c hc => fresh c (by simp [hc])⟩
        rcases Memory.mem_insert.mp hc with rfl | hc
        · show b < a; omega
        · exact hp.1 c hc
  · rcases Memory.mem_insert.mp hc with rfl | hc
    · exact hv
    · exact h.2 c hc

theorem Memory.write_wf {m : Memory} (h : m.wf) (a : Nat) (v : Byte) : (Memory.write m a v).wf := by
  unfold Memory.write
  split
  · exact Memory.clear_wf h a
  · next hv => exact Memory.insert_wf (Memory.clear_wf h a) hv (Memory.clear_fresh m a)

/-- A write lists no slot but the one it writes and those listed before. -/
theorem Memory.mem_write {m : Memory} {a : Nat} {v : Byte} {c : Host.Cell} (h : c ∈ Memory.write m a v) :
    c.1 = a ∨ c ∈ m := by
  unfold Memory.write at h
  split at h
  · exact .inr (List.mem_filter.mp h).1
  · rcases Memory.mem_insert.mp h with rfl | h
    · exact .inl rfl
    · exact .inr (List.mem_filter.mp h).1

@[simp] theorem Memory.write_nil_zero (a : Nat) : Memory.write [] a 0 = [] := rfl

/-! ## The write port at an edge -/

@[simp] theorem commitLanes_nil (m : Memory) : commitLanes m [] = m := rfl

@[simp] theorem commitLanes_cons (m : Memory) (l : Option WriteLane) (rest : List (Option WriteLane)) :
    commitLanes m (l :: rest) = commitLanes (commitLane m l) rest := rfl

@[simp] theorem commitLane_none (m : Memory) : commitLane m none = m := rfl

@[simp] theorem commitLane_some (m : Memory) (l : WriteLane) :
    commitLane m (some l) = Memory.write m l.addr l.data := rfl

theorem commitLanes_wf {m : Memory} (h : m.wf) (lanes : List (Option WriteLane)) :
    (commitLanes m lanes).wf := by
  induction lanes generalizing m with
  | nil => exact h
  | cons l rest ih =>
    cases l with
    | none => exact ih h
    | some l => exact ih (Memory.write_wf h _ _)

/-- The write port lists no slot but those its enabled lanes write and those listed before. -/
theorem mem_commitLanes {m : Memory} {lanes : List (Option WriteLane)} {c : Host.Cell}
    (h : c ∈ commitLanes m lanes) : (∃ l, some l ∈ lanes ∧ c.1 = l.addr) ∨ c ∈ m := by
  induction lanes generalizing m with
  | nil => exact .inr h
  | cons l rest ih =>
    rcases ih h with ⟨l', hl', hc⟩ | hm
    · exact .inl ⟨l', by simp [hl'], hc⟩
    · cases l with
      | none => exact .inr hm
      | some l =>
        rcases Memory.mem_write hm with ha | hm
        · exact .inl ⟨l, by simp, ha⟩
        · exact .inr hm

/-- A slot that no enabled lane addresses reads as before. -/
theorem read_commitLanes_other {m : Memory} {lanes : List (Option WriteLane)} {a : Nat}
    (h : ∀ l, some l ∈ lanes → l.addr ≠ a) : (commitLanes m lanes).read a = m.read a := by
  induction lanes generalizing m with
  | nil => rfl
  | cons l rest ih =>
    rw [commitLanes_cons, ih fun l hl => h l (by simp [hl])]
    cases l with
    | none => rfl
    | some l => rw [commitLane_some, Memory.read_write, if_neg fun e => h l (by simp) e.symm]

/-- Lanes that write 0 keep the empty storage empty. -/
theorem commitLanes_nil_of_zero {lanes : List (Option WriteLane)} (h : ∀ l, some l ∈ lanes → l.data = 0) :
    commitLanes [] lanes = [] := by
  induction lanes with
  | nil => rfl
  | cons l rest ih =>
    have hr := ih fun l hl => h l (by simp [hl])
    cases l with
    | none => exact hr
    | some l => rw [commitLanes_cons, commitLane_some, h l (by simp), Memory.write_nil_zero, hr]

/-! ## The index unit -/

@[simp] theorem idx_lt (b : Build) (c k : Nat) : idx b c k < b.N := Nat.mod_lt _ b.N_pos

@[simp] theorem adv_lt (b : Build) (c w : Nat) : adv b c w < b.N := Nat.mod_lt _ b.N_pos

theorem idx_zero {b : Build} {c : Nat} (h : c < b.N) : idx b c 0 = c := by
  simp [idx, Nat.mod_eq_of_lt h]

/-- The slots of one access are distinct, as long as there are no more of them than the storage has (R15). -/
theorem idx_injective {b : Build} {c j k : Nat} (hj : j < b.N) (hk : k < b.N) (h : idx b c j = idx b c k) :
    j = k := by
  have h' : j ≡ k [MOD b.N] := Nat.ModEq.add_left_cancel' c h
  exact Nat.ModEq.eq_of_lt_of_lt h' hj hk

/-- An index from a cursor that was itself advanced. -/
theorem idx_mod (b : Build) (c j k : Nat) : idx b ((c + j) % b.N) k = idx b c (j + k) := by
  simp [idx, Nat.add_assoc]

end Sys2Proof.Machine
end

