-- ==== Sys2Proof/Laws/State.lean ====
section
/-! SUPPORT. One lemma for each field and each update of the state, so that no proof unfolds a record update. -/

namespace Sys2Proof.Machine

variable (s : State)

/-! ## setMem -/

@[simp] theorem State.setMem_build (m : Memory) : (s.setMem m).build = s.build := rfl
@[simp] theorem State.setMem_mem (m : Memory) : (s.setMem m).mem = m := rfl
@[simp] theorem State.setMem_rd (m : Memory) : (s.setMem m).rd = s.rd := rfl
@[simp] theorem State.setMem_wr (m : Memory) : (s.setMem m).wr = s.wr := rfl
@[simp] theorem State.setMem_fc (m : Memory) : (s.setMem m).fc = s.fc := rfl
@[simp] theorem State.setMem_rspPend (m : Memory) : (s.setMem m).rspPend = s.rspPend := rfl
@[simp] theorem State.setMem_rspSt (m : Memory) : (s.setMem m).rspSt = s.rspSt := rfl
@[simp] theorem State.setMem_rspDat (m : Memory) : (s.setMem m).rspDat = s.rspDat := rfl
@[simp] theorem State.setMem_rspLine (m : Memory) : (s.setMem m).rspLine = s.rspLine := rfl
@[simp] theorem State.setMem_clrBusy (m : Memory) : (s.setMem m).clrBusy = s.clrBusy := rfl
@[simp] theorem State.setMem_clrPtr (m : Memory) : (s.setMem m).clrPtr = s.clrPtr := rfl
@[simp] theorem State.setMem_clrCycle (m : Memory) : (s.setMem m).clrCycle = s.clrCycle := rfl
@[simp] theorem State.setMem_ramRdata (m : Memory) : (s.setMem m).ramRdata = s.ramRdata := rfl
@[simp] theorem State.setMem_rstIn (m : Memory) : (s.setMem m).rstIn = s.rstIn := rfl
@[simp] theorem State.setMem_cmdIn (m : Memory) : (s.setMem m).cmdIn = s.cmdIn := rfl
@[simp] theorem State.setMem_draws (m : Memory) : (s.setMem m).draws = s.draws := rfl

/-! ## setRd -/

@[simp] theorem State.setRd_build (c : Nat) : (s.setRd c).build = s.build := rfl
@[simp] theorem State.setRd_mem (c : Nat) : (s.setRd c).mem = s.mem := rfl
@[simp] theorem State.setRd_rd (c : Nat) : (s.setRd c).rd = c := rfl
@[simp] theorem State.setRd_wr (c : Nat) : (s.setRd c).wr = s.wr := rfl
@[simp] theorem State.setRd_fc (c : Nat) : (s.setRd c).fc = s.fc := rfl
@[simp] theorem State.setRd_rspPend (c : Nat) : (s.setRd c).rspPend = s.rspPend := rfl
@[simp] theorem State.setRd_rspSt (c : Nat) : (s.setRd c).rspSt = s.rspSt := rfl
@[simp] theorem State.setRd_rspDat (c : Nat) : (s.setRd c).rspDat = s.rspDat := rfl
@[simp] theorem State.setRd_rspLine (c : Nat) : (s.setRd c).rspLine = s.rspLine := rfl
@[simp] theorem State.setRd_clrBusy (c : Nat) : (s.setRd c).clrBusy = s.clrBusy := rfl
@[simp] theorem State.setRd_clrPtr (c : Nat) : (s.setRd c).clrPtr = s.clrPtr := rfl
@[simp] theorem State.setRd_clrCycle (c : Nat) : (s.setRd c).clrCycle = s.clrCycle := rfl
@[simp] theorem State.setRd_ramRdata (c : Nat) : (s.setRd c).ramRdata = s.ramRdata := rfl
@[simp] theorem State.setRd_rstIn (c : Nat) : (s.setRd c).rstIn = s.rstIn := rfl
@[simp] theorem State.setRd_cmdIn (c : Nat) : (s.setRd c).cmdIn = s.cmdIn := rfl
@[simp] theorem State.setRd_draws (c : Nat) : (s.setRd c).draws = s.draws := rfl

/-! ## setWr -/

@[simp] theorem State.setWr_build (c : Nat) : (s.setWr c).build = s.build := rfl
@[simp] theorem State.setWr_mem (c : Nat) : (s.setWr c).mem = s.mem := rfl
@[simp] theorem State.setWr_rd (c : Nat) : (s.setWr c).rd = s.rd := rfl
@[simp] theorem State.setWr_wr (c : Nat) : (s.setWr c).wr = c := rfl
@[simp] theorem State.setWr_fc (c : Nat) : (s.setWr c).fc = s.fc := rfl
@[simp] theorem State.setWr_rspPend (c : Nat) : (s.setWr c).rspPend = s.rspPend := rfl
@[simp] theorem State.setWr_rspSt (c : Nat) : (s.setWr c).rspSt = s.rspSt := rfl
@[simp] theorem State.setWr_rspDat (c : Nat) : (s.setWr c).rspDat = s.rspDat := rfl
@[simp] theorem State.setWr_rspLine (c : Nat) : (s.setWr c).rspLine = s.rspLine := rfl
@[simp] theorem State.setWr_clrBusy (c : Nat) : (s.setWr c).clrBusy = s.clrBusy := rfl
@[simp] theorem State.setWr_clrPtr (c : Nat) : (s.setWr c).clrPtr = s.clrPtr := rfl
@[simp] theorem State.setWr_clrCycle (c : Nat) : (s.setWr c).clrCycle = s.clrCycle := rfl
@[simp] theorem State.setWr_ramRdata (c : Nat) : (s.setWr c).ramRdata = s.ramRdata := rfl
@[simp] theorem State.setWr_rstIn (c : Nat) : (s.setWr c).rstIn = s.rstIn := rfl
@[simp] theorem State.setWr_cmdIn (c : Nat) : (s.setWr c).cmdIn = s.cmdIn := rfl
@[simp] theorem State.setWr_draws (c : Nat) : (s.setWr c).draws = s.draws := rfl

/-! ## setFc -/

@[simp] theorem State.setFc_build (n : Nat) : (s.setFc n).build = s.build := rfl
@[simp] theorem State.setFc_mem (n : Nat) : (s.setFc n).mem = s.mem := rfl
@[simp] theorem State.setFc_rd (n : Nat) : (s.setFc n).rd = s.rd := rfl
@[simp] theorem State.setFc_wr (n : Nat) : (s.setFc n).wr = s.wr := rfl
@[simp] theorem State.setFc_fc (n : Nat) : (s.setFc n).fc = n := rfl
@[simp] theorem State.setFc_rspPend (n : Nat) : (s.setFc n).rspPend = s.rspPend := rfl
@[simp] theorem State.setFc_rspSt (n : Nat) : (s.setFc n).rspSt = s.rspSt := rfl
@[simp] theorem State.setFc_rspDat (n : Nat) : (s.setFc n).rspDat = s.rspDat := rfl
@[simp] theorem State.setFc_rspLine (n : Nat) : (s.setFc n).rspLine = s.rspLine := rfl
@[simp] theorem State.setFc_clrBusy (n : Nat) : (s.setFc n).clrBusy = s.clrBusy := rfl
@[simp] theorem State.setFc_clrPtr (n : Nat) : (s.setFc n).clrPtr = s.clrPtr := rfl
@[simp] theorem State.setFc_clrCycle (n : Nat) : (s.setFc n).clrCycle = s.clrCycle := rfl
@[simp] theorem State.setFc_ramRdata (n : Nat) : (s.setFc n).ramRdata = s.ramRdata := rfl
@[simp] theorem State.setFc_rstIn (n : Nat) : (s.setFc n).rstIn = s.rstIn := rfl
@[simp] theorem State.setFc_cmdIn (n : Nat) : (s.setFc n).cmdIn = s.cmdIn := rfl
@[simp] theorem State.setFc_draws (n : Nat) : (s.setFc n).draws = s.draws := rfl

/-! ## setRsp -/

@[simp] theorem State.setRsp_build (p : Bool) (st : BitVec 2) (d : Word) (l : List (Option Response)) : (s.setRsp p st d l).build = s.build := rfl
@[simp] theorem State.setRsp_mem (p : Bool) (st : BitVec 2) (d : Word) (l : List (Option Response)) : (s.setRsp p st d l).mem = s.mem := rfl
@[simp] theorem State.setRsp_rd (p : Bool) (st : BitVec 2) (d : Word) (l : List (Option Response)) : (s.setRsp p st d l).rd = s.rd := rfl
@[simp] theorem State.setRsp_wr (p : Bool) (st : BitVec 2) (d : Word) (l : List (Option Response)) : (s.setRsp p st d l).wr = s.wr := rfl
@[simp] theorem State.setRsp_fc (p : Bool) (st : BitVec 2) (d : Word) (l : List (Option Response)) : (s.setRsp p st d l).fc = s.fc := rfl
@[simp] theorem State.setRsp_rspPend (p : Bool) (st : BitVec 2) (d : Word) (l : List (Option Response)) : (s.setRsp p st d l).rspPend = p := rfl
@[simp] theorem State.setRsp_rspSt (p : Bool) (st : BitVec 2) (d : Word) (l : List (Option Response)) : (s.setRsp p st d l).rspSt = st := rfl
@[simp] theorem State.setRsp_rspDat (p : Bool) (st : BitVec 2) (d : Word) (l : List (Option Response)) : (s.setRsp p st d l).rspDat = d := rfl
@[simp] theorem State.setRsp_rspLine (p : Bool) (st : BitVec 2) (d : Word) (l : List (Option Response)) : (s.setRsp p st d l).rspLine = l := rfl
@[simp] theorem State.setRsp_clrBusy (p : Bool) (st : BitVec 2) (d : Word) (l : List (Option Response)) : (s.setRsp p st d l).clrBusy = s.clrBusy := rfl
@[simp] theorem State.setRsp_clrPtr (p : Bool) (st : BitVec 2) (d : Word) (l : List (Option Response)) : (s.setRsp p st d l).clrPtr = s.clrPtr := rfl
@[simp] theorem State.setRsp_clrCycle (p : Bool) (st : BitVec 2) (d : Word) (l : List (Option Response)) : (s.setRsp p st d l).clrCycle = s.clrCycle := rfl
@[simp] theorem State.setRsp_ramRdata (p : Bool) (st : BitVec 2) (d : Word) (l : List (Option Response)) : (s.setRsp p st d l).ramRdata = s.ramRdata := rfl
@[simp] theorem State.setRsp_rstIn (p : Bool) (st : BitVec 2) (d : Word) (l : List (Option Response)) : (s.setRsp p st d l).rstIn = s.rstIn := rfl
@[simp] theorem State.setRsp_cmdIn (p : Bool) (st : BitVec 2) (d : Word) (l : List (Option Response)) : (s.setRsp p st d l).cmdIn = s.cmdIn := rfl
@[simp] theorem State.setRsp_draws (p : Bool) (st : BitVec 2) (d : Word) (l : List (Option Response)) : (s.setRsp p st d l).draws = s.draws := rfl

/-! ## setClear -/

@[simp] theorem State.setClear_build (b : Bool) (p c : Nat) : (s.setClear b p c).build = s.build := rfl
@[simp] theorem State.setClear_mem (b : Bool) (p c : Nat) : (s.setClear b p c).mem = s.mem := rfl
@[simp] theorem State.setClear_rd (b : Bool) (p c : Nat) : (s.setClear b p c).rd = s.rd := rfl
@[simp] theorem State.setClear_wr (b : Bool) (p c : Nat) : (s.setClear b p c).wr = s.wr := rfl
@[simp] theorem State.setClear_fc (b : Bool) (p c : Nat) : (s.setClear b p c).fc = s.fc := rfl
@[simp] theorem State.setClear_rspPend (b : Bool) (p c : Nat) : (s.setClear b p c).rspPend = s.rspPend := rfl
@[simp] theorem State.setClear_rspSt (b : Bool) (p c : Nat) : (s.setClear b p c).rspSt = s.rspSt := rfl
@[simp] theorem State.setClear_rspDat (b : Bool) (p c : Nat) : (s.setClear b p c).rspDat = s.rspDat := rfl
@[simp] theorem State.setClear_rspLine (b : Bool) (p c : Nat) : (s.setClear b p c).rspLine = s.rspLine := rfl
@[simp] theorem State.setClear_clrBusy (b : Bool) (p c : Nat) : (s.setClear b p c).clrBusy = b := rfl
@[simp] theorem State.setClear_clrPtr (b : Bool) (p c : Nat) : (s.setClear b p c).clrPtr = p := rfl
@[simp] theorem State.setClear_clrCycle (b : Bool) (p c : Nat) : (s.setClear b p c).clrCycle = c := rfl
@[simp] theorem State.setClear_ramRdata (b : Bool) (p c : Nat) : (s.setClear b p c).ramRdata = s.ramRdata := rfl
@[simp] theorem State.setClear_rstIn (b : Bool) (p c : Nat) : (s.setClear b p c).rstIn = s.rstIn := rfl
@[simp] theorem State.setClear_cmdIn (b : Bool) (p c : Nat) : (s.setClear b p c).cmdIn = s.cmdIn := rfl
@[simp] theorem State.setClear_draws (b : Bool) (p c : Nat) : (s.setClear b p c).draws = s.draws := rfl

/-! ## setRam -/

@[simp] theorem State.setRam_build (l : Lanes) : (s.setRam l).build = s.build := rfl
@[simp] theorem State.setRam_mem (l : Lanes) : (s.setRam l).mem = s.mem := rfl
@[simp] theorem State.setRam_rd (l : Lanes) : (s.setRam l).rd = s.rd := rfl
@[simp] theorem State.setRam_wr (l : Lanes) : (s.setRam l).wr = s.wr := rfl
@[simp] theorem State.setRam_fc (l : Lanes) : (s.setRam l).fc = s.fc := rfl
@[simp] theorem State.setRam_rspPend (l : Lanes) : (s.setRam l).rspPend = s.rspPend := rfl
@[simp] theorem State.setRam_rspSt (l : Lanes) : (s.setRam l).rspSt = s.rspSt := rfl
@[simp] theorem State.setRam_rspDat (l : Lanes) : (s.setRam l).rspDat = s.rspDat := rfl
@[simp] theorem State.setRam_rspLine (l : Lanes) : (s.setRam l).rspLine = s.rspLine := rfl
@[simp] theorem State.setRam_clrBusy (l : Lanes) : (s.setRam l).clrBusy = s.clrBusy := rfl
@[simp] theorem State.setRam_clrPtr (l : Lanes) : (s.setRam l).clrPtr = s.clrPtr := rfl
@[simp] theorem State.setRam_clrCycle (l : Lanes) : (s.setRam l).clrCycle = s.clrCycle := rfl
@[simp] theorem State.setRam_ramRdata (l : Lanes) : (s.setRam l).ramRdata = l := rfl
@[simp] theorem State.setRam_rstIn (l : Lanes) : (s.setRam l).rstIn = s.rstIn := rfl
@[simp] theorem State.setRam_cmdIn (l : Lanes) : (s.setRam l).cmdIn = s.cmdIn := rfl
@[simp] theorem State.setRam_draws (l : Lanes) : (s.setRam l).draws = s.draws := rfl

/-! ## setInputs -/

@[simp] theorem State.setInputs_build (r : List Bool) (c : List (Option CmdWord)) : (s.setInputs r c).build = s.build := rfl
@[simp] theorem State.setInputs_mem (r : List Bool) (c : List (Option CmdWord)) : (s.setInputs r c).mem = s.mem := rfl
@[simp] theorem State.setInputs_rd (r : List Bool) (c : List (Option CmdWord)) : (s.setInputs r c).rd = s.rd := rfl
@[simp] theorem State.setInputs_wr (r : List Bool) (c : List (Option CmdWord)) : (s.setInputs r c).wr = s.wr := rfl
@[simp] theorem State.setInputs_fc (r : List Bool) (c : List (Option CmdWord)) : (s.setInputs r c).fc = s.fc := rfl
@[simp] theorem State.setInputs_rspPend (r : List Bool) (c : List (Option CmdWord)) : (s.setInputs r c).rspPend = s.rspPend := rfl
@[simp] theorem State.setInputs_rspSt (r : List Bool) (c : List (Option CmdWord)) : (s.setInputs r c).rspSt = s.rspSt := rfl
@[simp] theorem State.setInputs_rspDat (r : List Bool) (c : List (Option CmdWord)) : (s.setInputs r c).rspDat = s.rspDat := rfl
@[simp] theorem State.setInputs_rspLine (r : List Bool) (c : List (Option CmdWord)) : (s.setInputs r c).rspLine = s.rspLine := rfl
@[simp] theorem State.setInputs_clrBusy (r : List Bool) (c : List (Option CmdWord)) : (s.setInputs r c).clrBusy = s.clrBusy := rfl
@[simp] theorem State.setInputs_clrPtr (r : List Bool) (c : List (Option CmdWord)) : (s.setInputs r c).clrPtr = s.clrPtr := rfl
@[simp] theorem State.setInputs_clrCycle (r : List Bool) (c : List (Option CmdWord)) : (s.setInputs r c).clrCycle = s.clrCycle := rfl
@[simp] theorem State.setInputs_ramRdata (r : List Bool) (c : List (Option CmdWord)) : (s.setInputs r c).ramRdata = s.ramRdata := rfl
@[simp] theorem State.setInputs_rstIn (r : List Bool) (c : List (Option CmdWord)) : (s.setInputs r c).rstIn = r := rfl
@[simp] theorem State.setInputs_cmdIn (r : List Bool) (c : List (Option CmdWord)) : (s.setInputs r c).cmdIn = c := rfl
@[simp] theorem State.setInputs_draws (r : List Bool) (c : List (Option CmdWord)) : (s.setInputs r c).draws = s.draws := rfl

/-! ## nextDraw -/

@[simp] theorem State.nextDraw_build : (s.nextDraw).build = s.build := rfl
@[simp] theorem State.nextDraw_mem : (s.nextDraw).mem = s.mem := rfl
@[simp] theorem State.nextDraw_rd : (s.nextDraw).rd = s.rd := rfl
@[simp] theorem State.nextDraw_wr : (s.nextDraw).wr = s.wr := rfl
@[simp] theorem State.nextDraw_fc : (s.nextDraw).fc = s.fc := rfl
@[simp] theorem State.nextDraw_rspPend : (s.nextDraw).rspPend = s.rspPend := rfl
@[simp] theorem State.nextDraw_rspSt : (s.nextDraw).rspSt = s.rspSt := rfl
@[simp] theorem State.nextDraw_rspDat : (s.nextDraw).rspDat = s.rspDat := rfl
@[simp] theorem State.nextDraw_rspLine : (s.nextDraw).rspLine = s.rspLine := rfl
@[simp] theorem State.nextDraw_clrBusy : (s.nextDraw).clrBusy = s.clrBusy := rfl
@[simp] theorem State.nextDraw_clrPtr : (s.nextDraw).clrPtr = s.clrPtr := rfl
@[simp] theorem State.nextDraw_clrCycle : (s.nextDraw).clrCycle = s.clrCycle := rfl
@[simp] theorem State.nextDraw_ramRdata : (s.nextDraw).ramRdata = s.ramRdata := rfl
@[simp] theorem State.nextDraw_rstIn : (s.nextDraw).rstIn = s.rstIn := rfl
@[simp] theorem State.nextDraw_cmdIn : (s.nextDraw).cmdIn = s.cmdIn := rfl
@[simp] theorem State.nextDraw_draws : (s.nextDraw).draws = s.draws + 1 := rfl

end Sys2Proof.Machine
end

