-- ==== Sys2Proof/Laws/Ops.lean ====
section
/-! SUPPORT. What each shared operation does, said once: the response of a command, the transfers, the empty buffer, and
the clear sequencer's start. -/

namespace Sys2Proof.Machine

/-! ## Responding -/

section
variable (r : Response) (st : Status) (d : Word) (e : ErrorKind) (s : State)

@[simp] theorem postResponse_build : (postResponse r s).build = s.build := rfl
@[simp] theorem postResponse_mem : (postResponse r s).mem = s.mem := rfl
@[simp] theorem postResponse_rd : (postResponse r s).rd = s.rd := rfl
@[simp] theorem postResponse_wr : (postResponse r s).wr = s.wr := rfl
@[simp] theorem postResponse_fc : (postResponse r s).fc = s.fc := rfl
@[simp] theorem postResponse_clrBusy : (postResponse r s).clrBusy = s.clrBusy := rfl
@[simp] theorem postResponse_clrPtr : (postResponse r s).clrPtr = s.clrPtr := rfl
@[simp] theorem postResponse_clrCycle : (postResponse r s).clrCycle = s.clrCycle := rfl
@[simp] theorem postResponse_ramRdata : (postResponse r s).ramRdata = s.ramRdata := rfl
@[simp] theorem postResponse_rstIn : (postResponse r s).rstIn = s.rstIn := rfl
@[simp] theorem postResponse_cmdIn : (postResponse r s).cmdIn = s.cmdIn := rfl
@[simp] theorem postResponse_draws : (postResponse r s).draws = s.draws := rfl

@[simp] theorem respond_eq : respond st d s = postResponse ⟨st, d⟩ s := rfl

/-- A response whose data is free is a response with the value drawn, and one draw more. -/
theorem respondAny_eq : respondAny st s = (postResponse ⟨st, Config.anyRdata s.draws⟩ s).nextDraw := rfl

@[simp] theorem respondAny_build : (respondAny st s).build = s.build := rfl
@[simp] theorem respondAny_mem : (respondAny st s).mem = s.mem := rfl
@[simp] theorem respondAny_rd : (respondAny st s).rd = s.rd := rfl
@[simp] theorem respondAny_wr : (respondAny st s).wr = s.wr := rfl
@[simp] theorem respondAny_fc : (respondAny st s).fc = s.fc := rfl
@[simp] theorem respondAny_clrBusy : (respondAny st s).clrBusy = s.clrBusy := rfl
@[simp] theorem respondAny_clrPtr : (respondAny st s).clrPtr = s.clrPtr := rfl
@[simp] theorem respondAny_clrCycle : (respondAny st s).clrCycle = s.clrCycle := rfl
@[simp] theorem respondAny_ramRdata : (respondAny st s).ramRdata = s.ramRdata := rfl
@[simp] theorem respondAny_rstIn : (respondAny st s).rstIn = s.rstIn := rfl
@[simp] theorem respondAny_cmdIn : (respondAny st s).cmdIn = s.cmdIn := rfl
@[simp] theorem respondAny_draws : (respondAny st s).draws = s.draws + 1 := rfl

@[simp] theorem raise_eq : raise e s = respondAny (errorStatus e) s := rfl

/-- The response pipeline after a response has entered it. -/
theorem postResponse_respondsWith : RespondsWith s r (postResponse r s) := by
  constructor <;> intro h <;> simp [postResponse, h]

/-- The response pipeline decides `RespondsWith`; the rest of the state does not enter. -/
theorem RespondsWith.congr {s s' t t' : State} {r : Response} (h : RespondsWith s r t)
    (hl : s'.rspLine = s.rspLine) (hp : s'.rspPend = s.rspPend) (hs : s'.rspSt = s.rspSt) (hd : s'.rspDat = s.rspDat)
    (tl : t'.rspLine = t.rspLine) (tp : t'.rspPend = t.rspPend) (ts : t'.rspSt = t.rspSt) (td : t'.rspDat = t.rspDat) :
    RespondsWith s' r t' := by
  unfold RespondsWith at h ⊢
  rw [hl, hp, hs, hd, tl, tp, ts, td]
  exact h

theorem respondAny_respondsWith : RespondsWith s ⟨st, Config.anyRdata s.draws⟩ (respondAny st s) :=
  (postResponse_respondsWith _ s).congr rfl rfl rfl rfl rfl rfl rfl rfl

/-- The response that has just entered the pipeline is the newest one in it. -/
theorem RespondsWith.newest_eq {s t : State} {r : Response} (h : RespondsWith s r t) :
    newest t = some (statusCode r.status, r.rdata) := by
  by_cases hl : s.rspLine = []
  · obtain ⟨tl, tp, ts, td⟩ := h.1 hl
    simp [newest, tl, tp, ts, td]
  · obtain ⟨tl, -, -, -⟩ := h.2 hl
    simp [newest, tl]

/-- A response that enters the pipeline leaves its length as it was. -/
theorem RespondsWith.line_length {s t : State} {r : Response} (h : RespondsWith s r t) :
    t.rspLine.length = s.rspLine.length := by
  by_cases hl : s.rspLine = []
  · rw [(h.1 hl).1, hl]
  · have := List.length_pos_of_ne_nil hl
    rw [(h.2 hl).1]
    simp
    omega

/-- No status of the model has the code `11` (R67). -/
theorem statusCode_ne (st : Status) : statusCode st ≠ 0b11#2 := by
  cases st <;> decide

theorem statusCode_injective {a b : Status} (h : statusCode a = statusCode b) : a = b := by
  cases a <;> cases b <;> first | rfl | (exact absurd h (by decide))

end

/-! ## The storage under a transfer -/

section
variable {b : Build} {m : Memory} {c : Nat} {w : Width} {v : Word}

theorem byteCount_pos (w : Width) : 0 < byteCount w := by cases w <;> decide

theorem byteCount_le_four (w : Width) : byteCount w ≤ 4 := by cases w <;> decide

/-- The enabled lanes of a PUT's write port are the lanes below its width, each at its slot with its byte (R55). -/
theorem some_mem_putLanes {l : WriteLane} :
    some l ∈ putLanes b c w v ↔ ∃ k < byteCount w, l = ⟨idx b c k, byteLane v k⟩ := by
  cases w <;> simp [putLanes, allLanes, byteCount, eq_comm]
  · constructor
    · rintro (h | h)
      · exact ⟨0, by omega, h⟩
      · exact ⟨1, by omega, h⟩
    · rintro ⟨k, hk, h⟩
      interval_cases k <;> simp [h]
  · constructor
    · rintro (h | h | h | h)
      · exact ⟨0, by omega, h⟩
      · exact ⟨1, by omega, h⟩
      · exact ⟨2, by omega, h⟩
      · exact ⟨3, by omega, h⟩
    · rintro ⟨k, hk, h⟩
      interval_cases k <;> simp [h]

/-- After `MemWrite(c, w, v)` slot `idx(c, k)` holds byte `k` of `v`, for every `k < w` (R15, R42). -/
theorem read_memWrite_enabled (hw : byteCount w ≤ b.N) {k : Nat} (hk : k < byteCount w) :
    (memWrite b m c w v).read (idx b c k) = byteLane v k := by
  have hinj : ∀ i j, i < byteCount w → j < byteCount w → idx b c i = idx b c j → i = j := fun i j hi hj h =>
    idx_injective (by omega) (by omega) h
  cases w <;> simp only [byteCount] at hk hinj <;> interval_cases k <;>
    simp [memWrite, putLanes, allLanes, byteCount, Memory.read_write] <;>
    grind

/-- `MemWrite(c, w, v)` leaves every other slot alone (R15). -/
theorem read_memWrite_other {a : Nat} (h : ∀ k < byteCount w, idx b c k ≠ a) :
    (memWrite b m c w v).read a = m.read a :=
  read_commitLanes_other fun l hl => by
    obtain ⟨k, hk, rfl⟩ := some_mem_putLanes.mp hl
    exact h k hk

theorem memWrite_wf (h : m.wf) : (memWrite b m c w v).wf := commitLanes_wf h _

theorem memWrite_slots (h : ∀ x ∈ m, x.1 < b.N) : ∀ x ∈ memWrite b m c w v, x.1 < b.N := by
  intro x hx
  rcases mem_commitLanes hx with ⟨l, hl, hc⟩ | hm
  · obtain ⟨k, -, rfl⟩ := some_mem_putLanes.mp hl
    simp [hc]
  · exact h x hm

end

/-! ## The transfers -/

section
variable (w : Width) (v : Word) (s : State)

@[simp] theorem storeValue_build : (storeValue w v s).build = s.build := rfl
@[simp] theorem storeValue_mem : (storeValue w v s).mem = memWrite s.build s.mem s.wr w v := rfl
@[simp] theorem storeValue_rd : (storeValue w v s).rd = s.rd := rfl
@[simp] theorem storeValue_wr : (storeValue w v s).wr = adv s.build s.wr (byteCount w) := rfl
@[simp] theorem storeValue_fc : (storeValue w v s).fc = s.fc - byteCount w := rfl
@[simp] theorem storeValue_rspLine : (storeValue w v s).rspLine = s.rspLine := rfl
@[simp] theorem storeValue_rspPend : (storeValue w v s).rspPend = s.rspPend := rfl
@[simp] theorem storeValue_rspSt : (storeValue w v s).rspSt = s.rspSt := rfl
@[simp] theorem storeValue_rspDat : (storeValue w v s).rspDat = s.rspDat := rfl
@[simp] theorem storeValue_clrBusy : (storeValue w v s).clrBusy = s.clrBusy := rfl
@[simp] theorem storeValue_clrPtr : (storeValue w v s).clrPtr = s.clrPtr := rfl
@[simp] theorem storeValue_clrCycle : (storeValue w v s).clrCycle = s.clrCycle := rfl
@[simp] theorem storeValue_ramRdata : (storeValue w v s).ramRdata = s.ramRdata := rfl
@[simp] theorem storeValue_rstIn : (storeValue w v s).rstIn = s.rstIn := rfl
@[simp] theorem storeValue_cmdIn : (storeValue w v s).cmdIn = s.cmdIn := rfl
@[simp] theorem storeValue_draws : (storeValue w v s).draws = s.draws := rfl

@[simp] theorem takeValue_build : (takeValue w s).build = s.build := rfl
@[simp] theorem takeValue_mem : (takeValue w s).mem = s.mem := rfl
@[simp] theorem takeValue_rd : (takeValue w s).rd = adv s.build s.rd (byteCount w) := rfl
@[simp] theorem takeValue_wr : (takeValue w s).wr = s.wr := rfl
@[simp] theorem takeValue_fc : (takeValue w s).fc = s.fc + byteCount w := rfl
@[simp] theorem takeValue_rspLine : (takeValue w s).rspLine = s.rspLine := rfl
@[simp] theorem takeValue_rspPend : (takeValue w s).rspPend = s.rspPend := rfl
@[simp] theorem takeValue_rspSt : (takeValue w s).rspSt = s.rspSt := rfl
@[simp] theorem takeValue_rspDat : (takeValue w s).rspDat = s.rspDat := rfl
@[simp] theorem takeValue_clrBusy : (takeValue w s).clrBusy = s.clrBusy := rfl
@[simp] theorem takeValue_clrPtr : (takeValue w s).clrPtr = s.clrPtr := rfl
@[simp] theorem takeValue_clrCycle : (takeValue w s).clrCycle = s.clrCycle := rfl
@[simp] theorem takeValue_ramRdata : (takeValue w s).ramRdata = captured w s := rfl
@[simp] theorem takeValue_rstIn : (takeValue w s).rstIn = s.rstIn := rfl
@[simp] theorem takeValue_cmdIn : (takeValue w s).cmdIn = s.cmdIn := rfl
@[simp] theorem takeValue_draws : (takeValue w s).draws = s.draws + 1 := rfl

/-- A byte that the read port captured on an enabled lane is the byte of its slot (R56). -/
theorem laneByte_captured {k : Nat} (hk : k < byteCount w) :
    laneByte (captured w s) k = s.mem.read (idx s.build s.rd k) := by
  have h4 := byteCount_le_four w
  have : k < 4 := by omega
  interval_cases k <;> simp [captured, readLanes, lanesOf, laneByte, hk]

variable {w v s}

/-- Everything a PUT can do. -/
theorem put_cases {t : State} (h : put w v s = .next t) :
    (byteCount w ≤ s.fc ∧ t = respondAny .ok (storeValue w v s)) ∨
      (s.fc < byteCount w ∧ t = respondAny .ecap s) := by
  unfold put putOk at h
  split at h
  · next hc => exact .inl ⟨by simpa using hc, by injection h with h; exact h.symm⟩
  · next hc => exact .inr ⟨by simpa using hc, by injection h with h; exact h.symm⟩

theorem put_ok (h : byteCount w ≤ s.fc) : put w v s = .next (respondAny .ok (storeValue w v s)) := by
  simp [put, putOk, h]

theorem put_fails (h : s.fc < byteCount w) : put w v s = .next (respondAny .ecap s) := by
  simp [put, putOk, h, errorStatus]

/-- Everything a GET can do. -/
theorem get_cases {t : State} (h : get w s = .next t) :
    (s.fc + byteCount w ≤ s.build.N ∧ t = postResponse ⟨.ok, unpack w (captured w s)⟩ (takeValue w s)) ∨
      (s.build.N < s.fc + byteCount w ∧ t = respondAny .ecap s) := by
  unfold get getOk at h
  split at h
  · next hc => exact .inl ⟨by simpa using hc, by injection h with h; exact h.symm⟩
  · next hc => exact .inr ⟨by simpa using hc, by injection h with h; exact h.symm⟩

theorem get_ok (h : s.fc + byteCount w ≤ s.build.N) :
    get w s = .next (postResponse ⟨.ok, unpack w (captured w s)⟩ (takeValue w s)) := by
  simp [get, getOk, h]

theorem get_fails (h : s.build.N < s.fc + byteCount w) : get w s = .next (respondAny .ecap s) := by
  simp [get, getOk, h, errorStatus]

end

/-! ## The empty buffer and the clear sequencer's start -/

section
variable (s : State)

@[simp] theorem emptyBuffer_build : (emptyBuffer s).build = s.build := rfl
@[simp] theorem emptyBuffer_mem : (emptyBuffer s).mem = [] := rfl
@[simp] theorem emptyBuffer_rd : (emptyBuffer s).rd = 0 := rfl
@[simp] theorem emptyBuffer_wr : (emptyBuffer s).wr = 0 := rfl
@[simp] theorem emptyBuffer_fc : (emptyBuffer s).fc = s.build.N := rfl
@[simp] theorem emptyBuffer_rspLine : (emptyBuffer s).rspLine = s.rspLine := rfl
@[simp] theorem emptyBuffer_rspPend : (emptyBuffer s).rspPend = s.rspPend := rfl
@[simp] theorem emptyBuffer_rspSt : (emptyBuffer s).rspSt = s.rspSt := rfl
@[simp] theorem emptyBuffer_rspDat : (emptyBuffer s).rspDat = s.rspDat := rfl
@[simp] theorem emptyBuffer_ramRdata : (emptyBuffer s).ramRdata = s.ramRdata := rfl
@[simp] theorem emptyBuffer_rstIn : (emptyBuffer s).rstIn = s.rstIn := rfl
@[simp] theorem emptyBuffer_cmdIn : (emptyBuffer s).cmdIn = s.cmdIn := rfl
@[simp] theorem emptyBuffer_draws : (emptyBuffer s).draws = s.draws := rfl

@[simp] theorem startClear_build : (startClear s).build = s.build := rfl
@[simp] theorem startClear_mem : (startClear s).mem = s.mem := rfl
@[simp] theorem startClear_rd : (startClear s).rd = s.rd := rfl
@[simp] theorem startClear_wr : (startClear s).wr = s.wr := rfl
@[simp] theorem startClear_fc : (startClear s).fc = s.fc := rfl
@[simp] theorem startClear_rspLine : (startClear s).rspLine = s.rspLine := rfl
@[simp] theorem startClear_rspPend : (startClear s).rspPend = s.rspPend := rfl
@[simp] theorem startClear_rspSt : (startClear s).rspSt = s.rspSt := rfl
@[simp] theorem startClear_rspDat : (startClear s).rspDat = s.rspDat := rfl
@[simp] theorem startClear_clrBusy : (startClear s).clrBusy = decide (0 < s.build.clrCycles) := rfl
@[simp] theorem startClear_clrPtr : (startClear s).clrPtr = freePtr s := rfl
@[simp] theorem startClear_clrCycle : (startClear s).clrCycle = 0 := rfl
@[simp] theorem startClear_ramRdata : (startClear s).ramRdata = s.ramRdata := rfl
@[simp] theorem startClear_rstIn : (startClear s).rstIn = s.rstIn := rfl
@[simp] theorem startClear_cmdIn : (startClear s).cmdIn = s.cmdIn := rfl

theorem freePtr_lt : freePtr s < 2 ^ cursorBits s.build := Nat.mod_lt _ (by positivity)

/-- INIT has one outcome. -/
theorem execInit_eq : execInit s = .next (respondAny .ok (startClear (emptyBuffer s))) := rfl

/-- RSVD has one outcome. -/
theorem execRsvd_eq : execRsvd s = .next (respondAny .eill s) := rfl

end

end Sys2Proof.Machine
end

