-- ==== Sys2Proof/Laws/Clock.lean ====
section
/-! SUPPORT. What an edge does, said once: the fields of a reset edge, of a cycle without reset, and the three cases of
a step. -/

namespace Sys2Proof.Machine

/-! ## The reset edge -/

section
variable (s : State)

@[simp] theorem resetEdge_build : (resetEdge s).build = s.build := rfl
@[simp] theorem resetEdge_mem : (resetEdge s).mem = [] := rfl
@[simp] theorem resetEdge_rd : (resetEdge s).rd = 0 := rfl
@[simp] theorem resetEdge_wr : (resetEdge s).wr = 0 := rfl
@[simp] theorem resetEdge_fc : (resetEdge s).fc = s.build.N := rfl
@[simp] theorem resetEdge_rspPend : (resetEdge s).rspPend = false := rfl
@[simp] theorem resetEdge_rspLine :
    (resetEdge s).rspLine = List.replicate ((s.build.latRsp : Nat) - 1) none := rfl
@[simp] theorem resetEdge_clrBusy : (resetEdge s).clrBusy = decide (0 < s.build.clrCycles) := rfl
@[simp] theorem resetEdge_clrCycle : (resetEdge s).clrCycle = 0 := rfl
@[simp] theorem resetEdge_rstIn : (resetEdge s).rstIn = s.rstIn.tail := rfl
@[simp] theorem resetEdge_cmdIn : (resetEdge s).cmdIn = restOfCmds false s.cmdIn := rfl

theorem resetEdge_clrPtr_lt : (resetEdge s).clrPtr < 2 ^ cursorBits s.build := Nat.mod_lt _ (by positivity)

end

/-! ## A cycle without reset -/

section
variable (s : State)

/-- The response that reaches the pending-response register at the next edge, if there is one (R175). -/
def arriving : Option Response := s.rspLine.head?.join

theorem shiftResponses_eq : shiftResponses s =
    s.setRsp (arriving s).isSome ((arriving s).elim (Config.anyRspSt s.draws) fun r => statusCode r.status)
      ((arriving s).elim (Config.anyRspDat s.draws) fun r => r.rdata) ((s.rspLine ++ [none]).tail) := by
  unfold shiftResponses arriving
  cases s.rspLine.head?.join <;> rfl

/-- A cycle without reset as one record: every field of the state after it. -/
theorem tick_eq : tick s =
    { build := s.build
      mem := if s.clrBusy then commitLanes s.mem (clearLanes s.build s.clrCycle) else s.mem
      rd := s.rd
      wr := s.wr
      fc := s.fc
      rspPend := (arriving s).isSome
      rspSt := (arriving s).elim (Config.anyRspSt s.draws) fun r => statusCode r.status
      rspDat := (arriving s).elim (Config.anyRspDat s.draws) fun r => r.rdata
      rspLine := (s.rspLine ++ [none]).tail
      clrBusy := if s.clrBusy then decide (s.clrCycle + 1 < s.build.clrCycles) else false
      clrPtr := if s.clrBusy then freePtr s else s.clrPtr
      clrCycle := if s.clrBusy then s.clrCycle + 1 else s.clrCycle
      ramRdata := unreadLanes s.draws
      rstIn := s.rstIn.tail
      cmdIn := restOfCmds (accepted s).isSome s.cmdIn
      draws := s.draws + 1 } := by
  unfold tick
  simp only [shiftResponses_eq]
  cases h : s.clrBusy <;> simp [clearCycle, consumeInputs, State.setMem, State.setClear, State.setRsp, State.setRam,
    State.setInputs, State.nextDraw, freePtr, arriving, h]

@[simp] theorem tick_build : (tick s).build = s.build := by rw [tick_eq]
@[simp] theorem tick_rd : (tick s).rd = s.rd := by rw [tick_eq]
@[simp] theorem tick_wr : (tick s).wr = s.wr := by rw [tick_eq]
@[simp] theorem tick_fc : (tick s).fc = s.fc := by rw [tick_eq]
@[simp] theorem tick_mem : (tick s).mem =
    if s.clrBusy then commitLanes s.mem (clearLanes s.build s.clrCycle) else s.mem := by rw [tick_eq]
@[simp] theorem tick_rspPend : (tick s).rspPend = (arriving s).isSome := by rw [tick_eq]
@[simp] theorem tick_rspSt : (tick s).rspSt =
    (arriving s).elim (Config.anyRspSt s.draws) fun r => statusCode r.status := by rw [tick_eq]
@[simp] theorem tick_rspDat : (tick s).rspDat =
    (arriving s).elim (Config.anyRspDat s.draws) fun r => r.rdata := by rw [tick_eq]
@[simp] theorem tick_rspLine : (tick s).rspLine = (s.rspLine ++ [none]).tail := by rw [tick_eq]
@[simp] theorem tick_clrBusy : (tick s).clrBusy =
    if s.clrBusy then decide (s.clrCycle + 1 < s.build.clrCycles) else false := by rw [tick_eq]
@[simp] theorem tick_clrPtr : (tick s).clrPtr = if s.clrBusy then freePtr s else s.clrPtr := by rw [tick_eq]
@[simp] theorem tick_clrCycle : (tick s).clrCycle = if s.clrBusy then s.clrCycle + 1 else s.clrCycle := by rw [tick_eq]
@[simp] theorem tick_rstIn : (tick s).rstIn = s.rstIn.tail := by rw [tick_eq]
@[simp] theorem tick_cmdIn : (tick s).cmdIn = restOfCmds (accepted s).isSome s.cmdIn := by rw [tick_eq]

end

/-! ## Acceptance -/

/-- A command is accepted only with `rst` low, the clear sequence over, and that word presented (R174). -/
theorem accepted_eq_some {s : State} {c : CmdWord} :
    accepted s = some c ↔ rstPin s = false ∧ s.clrBusy = false ∧ presentedCmd s = some c := by
  unfold accepted cmdReady
  cases rstPin s <;> cases s.clrBusy <;> simp

theorem accepted_busy {s : State} (h : s.clrBusy = true) : accepted s = none := by
  simp [accepted, cmdReady, h]

theorem accepted_reset {s : State} (h : rstPin s = true) : accepted s = none := by
  simp [accepted, cmdReady, h]

/-- A presented word stands first in the command stream. -/
theorem presentedCmd_eq_some {s : State} {c : CmdWord} :
    presentedCmd s = some c ↔ ∃ rest, s.cmdIn = some c :: rest := by
  unfold presentedCmd
  cases h : s.cmdIn with
  | nil => simp
  | cons x rest => cases x <;> simp

/-! ## The commands by kind -/

theorem operand8_low (v : BitVec 8) : (operand8 v).extractLsb' 0 8 = v := by
  apply BitVec.eq_of_toNat_eq
  simp [operand8]
  exact v.isLt

theorem operand16_low (v : BitVec 16) : (operand16 v).extractLsb' 0 16 = v := by
  apply BitVec.eq_of_toNat_eq
  simp [operand16]
  exact v.isLt

/-- Every command is a PUT, a GET, RSVD or INIT, and its meaning is the shared one of its kind. -/
theorem exec_kinds (i : Instr) :
    (∃ w v, i = decodePut w v ∧ ∀ s, exec i s = put w v s) ∨
    (∃ w, i = decodeGet w ∧ ∀ s, exec i s = get w s) ∨
    (i = .rsvd ∧ ∀ s, exec i s = .next (respondAny .eill s)) ∨
    (i = .init ∧ ∀ s, exec i s = .next (respondAny .ok (startClear (emptyBuffer s)))) := by
  cases i with
  | put8 v => exact .inl ⟨.one, operand8 v, by simp [decodePut, operand8_low], fun _ => rfl⟩
  | put16 v => exact .inl ⟨.two, operand16 v, by simp [decodePut, operand16_low], fun _ => rfl⟩
  | put32 v => exact .inl ⟨.four, v, rfl, fun _ => rfl⟩
  | rsvd => exact .inr (.inr (.inl ⟨rfl, fun _ => rfl⟩))
  | get8 => exact .inr (.inl ⟨.one, rfl, fun _ => rfl⟩)
  | get16 => exact .inr (.inl ⟨.two, rfl, fun _ => rfl⟩)
  | get32 => exact .inr (.inl ⟨.four, rfl, fun _ => rfl⟩)
  | init => exact .inr (.inr (.inr ⟨rfl, fun _ => rfl⟩))

/-- The value a decoded GET's kind stands for. -/
theorem exec_decodeGet (w : Width) (s : State) : exec (decodeGet w) s = get w s := by cases w <;> rfl

/-- The value that a PUT of width `w` stores, as the datapath sees it: the low `8w` bits, zero above (R64). -/
def lowBytes (w : Width) (v : Word) : Word :=
  match w with
  | .one => operand8 (v.extractLsb' 0 8)
  | .two => operand16 (v.extractLsb' 0 16)
  | .four => v

theorem exec_decodePut (w : Width) (v : Word) (s : State) : exec (decodePut w v) s = put w (lowBytes w v) s := by
  cases w <;> rfl

/-! ## One step -/

theorem idleLanes_none {l : WriteLane} : some l ∉ idleLanes := by simp [idleLanes, allLanes]

/-- A step has three cases: the reset edge, a command, or an edge that takes none. -/
theorem step_reset {s : State} (h : rstPin s = true) : step s = .next (resetEdge s) := by simp [step, h]

/-- The ports are never both active: while the clear sequence drives the write port no command is accepted, and a PUT is
no GET. -/
theorem portConflict_eq_false (s : State) : portConflict s = false := by
  unfold portConflict readActive writeActive writePort
  by_cases hb : s.clrBusy = true
  · simp [accepted_busy hb]
  · rcases h : (accepted s).map decode with _ | i
    · simp
    · cases i <;> simp [hb, idleLanes, allLanes]

theorem step_command {s : State} {c : CmdWord} (h : accepted s = some c) : step s = exec (decode c) (tick s) := by
  have hr := (accepted_eq_some.mp h).1
  simp [step, hr, portConflict_eq_false, h]

theorem step_quiet {s : State} (hr : rstPin s = false) (h : accepted s = none) : step s = .next (tick s) := by
  simp [step, hr, portConflict_eq_false, h]

/-- Everything a step can do. -/
theorem step_cases (s : State) :
    (rstPin s = true ∧ step s = .next (resetEdge s)) ∨
    (∃ c, rstPin s = false ∧ s.clrBusy = false ∧ accepted s = some c ∧ step s = exec (decode c) (tick s)) ∨
    (rstPin s = false ∧ accepted s = none ∧ step s = .next (tick s)) := by
  by_cases hr : rstPin s = true
  · exact .inl ⟨hr, step_reset hr⟩
  · have hr : rstPin s = false := by simpa using hr
    cases h : accepted s with
    | none => exact .inr (.inr ⟨hr, rfl, step_quiet hr h⟩)
    | some c => exact .inr (.inl ⟨c, hr, (accepted_eq_some.mp h).2.1, rfl, step_command h⟩)

end Sys2Proof.Machine
end

