-- ==== Sys2Proof/Laws/Decode.lean ====
section
/-! SUPPORT. The fields of a command word: a word is its two fields, and each field of a word made of two is that field
(30_encoding.md rule R60). -/

namespace Sys2Proof

theorem opField_cmdWord (o : BitVec 3) (d : Word) : opField (cmdWord o d) = o := by
  apply BitVec.eq_of_getLsbD_eq
  intro i hi
  interval_cases i <;> simp [opField, cmdWord]

theorem wdataField_cmdWord (o : BitVec 3) (d : Word) : wdataField (cmdWord o d) = d := by
  apply BitVec.eq_of_getLsbD_eq
  intro i hi
  simp [wdataField, cmdWord, hi, show i < 35 by omega]

theorem cmdWord_fields (c : CmdWord) : cmdWord (opField c) (wdataField c) = c := by
  apply BitVec.eq_of_getLsbD_eq
  intro i hi
  simp [opField, wdataField, cmdWord]
  grind

/-- The mask of the opcode map keeps the op field and nothing else (R63). -/
theorem and_opMask (c : CmdWord) : c &&& opMask = (opField c).setWidth 35 <<< 32 := by
  apply BitVec.eq_of_getLsbD_eq
  intro i hi
  simp [opField, opMask]
  interval_cases i <;> simp

/-- The op field decides the row, whatever `wdata` is: the decoder written as one table. -/
theorem decode_eq (c : CmdWord) : decode c =
    match widthOf (wselField (opField c)), dirBit (opField c) with
    | none, true => .init
    | none, false => .rsvd
    | some w, false => decodePut w (wdataField c)
    | some w, true => decodeGet w := rfl

/-- The decoder on a word made of an op field and data. -/
theorem decode_cmdWord (o : BitVec 3) (d : Word) : decode (cmdWord o d) =
    match widthOf (wselField o), dirBit o with
    | none, true => .init
    | none, false => .rsvd
    | some w, false => decodePut w d
    | some w, true => decodeGet w := by
  rw [decode_eq, opField_cmdWord, wdataField_cmdWord]

/-- A three-bit field has eight values. -/
theorem op_values (o : BitVec 3) : o = 0b000#3 ∨ o = 0b001#3 ∨ o = 0b010#3 ∨ o = 0b011#3 ∨ o = 0b100#3 ∨
    o = 0b101#3 ∨ o = 0b110#3 ∨ o = 0b111#3 := by
  revert o; decide

end Sys2Proof
end

