-- ==== Sys2Proof/Laws/PerInstr.lean ====
section
/-! SUPPORT. What holds of every instruction as syntax, one lemma for each constructor. -/

/-- The word an instruction encodes to matches the instruction's own row of the opcode map (30_encoding.md rule R63). -/
def Sys2Proof.Laws.EncodedRow.Statement (i : Sys2Proof.Instr) : Prop :=
  Sys2Proof.encode i &&& Sys2Proof.opMask = Sys2Proof.matchOf i

namespace Sys2Proof.Laws

/-- An encoded word under the mask is its op field in its place. -/
theorem encode_and_opMask (i : Instr) : encode i &&& opMask = matchOf i := by
  rw [and_opMask, encode, opField_cmdWord, matchOf]

theorem EncodedRow.put8 (v : BitVec 8) : EncodedRow.Statement (.put8 v) := encode_and_opMask _
theorem EncodedRow.put16 (v : BitVec 16) : EncodedRow.Statement (.put16 v) := encode_and_opMask _
theorem EncodedRow.put32 (v : BitVec 32) : EncodedRow.Statement (.put32 v) := encode_and_opMask _
theorem EncodedRow.rsvd : EncodedRow.Statement .rsvd := encode_and_opMask _
theorem EncodedRow.get8 : EncodedRow.Statement .get8 := encode_and_opMask _
theorem EncodedRow.get16 : EncodedRow.Statement .get16 := encode_and_opMask _
theorem EncodedRow.get32 : EncodedRow.Statement .get32 := encode_and_opMask _
theorem EncodedRow.init : EncodedRow.Statement .init := encode_and_opMask _

end Sys2Proof.Laws
end

