-- ==== Sys2Proof/Laws/Queue.lean ====
section
/-! SUPPORT. What the shared operations do to the buffer's invariant and to the queue it holds, and how values and bytes
go into each other. -/

namespace Sys2Proof.Machine

/-! ## Values and bytes -/

/-- OR of a value below bit `k` with a byte at bit `k` is a sum (R43). -/
theorem or_shift (x : Word) (b : Byte) (k : Nat) (hx : x.toNat < 2 ^ k) (hk : k ≤ 24) :
    (x ||| (b.setWidth 32 <<< k)).toNat = x.toNat + 2 ^ k * b.toNat := by
  have hb := b.isLt
  have h1 : b.toNat * 2 ^ k < 2 ^ 32 := by
    calc b.toNat * 2 ^ k < 2 ^ 8 * 2 ^ k := by gcongr
      _ = 2 ^ (8 + k) := by rw [Nat.pow_add]
      _ ≤ 2 ^ 32 := Nat.pow_le_pow_right (by omega) (by omega)
  rw [BitVec.toNat_or, Nat.or_comm]
  simp only [BitVec.toNat_shiftLeft, BitVec.toNat_setWidth, Nat.shiftLeft_eq]
  rw [Nat.mod_eq_of_lt (show b.toNat < 2 ^ 32 by omega), Nat.mod_eq_of_lt h1, ← Nat.shiftLeft_eq,
    ← Nat.shiftLeft_add_eq_or_of_lt hx, Nat.shiftLeft_eq]
  ring

/-- The unpack unit gives the little-endian sum of its enabled lanes (R43, R87). -/
theorem unpack_toNat (w : Width) (l : Lanes) :
    (unpack w l).toNat = leNat ((List.range (byteCount w)).map fun k => laneByte l k) := by
  obtain ⟨a, b, c, d⟩ := l
  have := a.isLt; have := b.isLt; have := c.isLt; have := d.isLt
  have e1 : (0#32 ||| (a.setWidth 32 <<< 0)).toNat = a.toNat := by rw [or_shift] <;> simp
  have e2 := or_shift (0#32 ||| (a.setWidth 32 <<< 0)) b 8 (by omega) (by omega)
  rw [e1] at e2
  have e3 := or_shift (0#32 ||| (a.setWidth 32 <<< 0) ||| (b.setWidth 32 <<< 8)) c 16 (by omega) (by omega)
  rw [e2] at e3
  have e4 := or_shift (0#32 ||| (a.setWidth 32 <<< 0) ||| (b.setWidth 32 <<< 8) ||| (c.setWidth 32 <<< 16)) d 24
    (by omega) (by omega)
  rw [e3] at e4
  cases w
  · refine e1.trans ?_; simp [leNat, byteCount, laneByte]
  · refine e2.trans ?_; simp [leNat, byteCount, List.range_succ, laneByte]
  · refine e4.trans ?_; simp [leNat, byteCount, List.range_succ, laneByte]; ring

/-- The value a GET returns is the little-endian sum of its slots. -/
theorem unpack_captured (w : Width) (s : State) : unpack w (captured w s) =
    BitVec.ofNat 32 (leNat ((List.range (byteCount w)).map fun k => s.mem.read (idx s.build s.rd k))) := by
  rw [← List.map_congr_left (fun k hk => laneByte_captured w s (by simpa using hk)), ← unpack_toNat,
    BitVec.ofNat_toNat, BitVec.setWidth_eq]

/-- The lanes of a value are its bytes, least significant first (R42). -/
theorem byteLanes_eq (w : Width) (v : Word) :
    (List.range (byteCount w)).map (fun k => byteLane v k) = leBytes (byteCount w) v.toNat := by
  unfold leBytes
  apply List.map_congr_left
  intro k _
  apply BitVec.eq_of_toNat_eq
  have e : (256 : Nat) ^ k = 2 ^ (8 * k) := by rw [Nat.pow_mul]
  simp [byteLane, Nat.shiftRight_eq_div_pow, e]

theorem leNat_lt (l : List Byte) : leNat l < 256 ^ l.length := by
  induction l with
  | nil => simp [leNat]
  | cons b r ih => have := b.isLt; simp [leNat, Nat.pow_succ]; omega

theorem leNat_leBytes (n v : Nat) : leNat (leBytes n v) = v % 256 ^ n := by
  induction n generalizing v with
  | zero => simp [leBytes, leNat, Nat.mod_one]
  | succ n ih =>
    have : leBytes (n + 1) v = BitVec.ofNat 8 v :: leBytes n (v / 256) := by
      simp [leBytes, List.range_succ_eq_map, Function.comp_def, Nat.div_div_eq_div_mul, Nat.pow_succ, Nat.mul_comm]
    rw [this, leNat, ih, Nat.pow_succ, Nat.mul_comm _ 256, Nat.mod_mul]
    simp

/-! ## The queue -/

theorem queue_length (s : State) : (queue s).length = occupied s := by simp [queue]

theorem queue_eq_nil {s : State} (h : s.fc = s.build.N) : queue s = [] := by simp [queue, occupied, h]

/-- The queue depends on the build, `rd`, `fc` and the occupied slots alone. -/
theorem queue_congr {s t : State} (hb : t.build = s.build) (hr : t.rd = s.rd) (hf : t.fc = s.fc)
    (hm : ∀ j < occupied s, t.mem.read (idx s.build s.rd j) = s.mem.read (idx s.build s.rd j)) :
    queue t = queue s := by
  have ho : occupied t = occupied s := by simp [occupied, hb, hf]
  unfold queue
  rw [ho, hb, hr]
  exact List.map_congr_left fun j hj => hm j (by simpa using hj)

/-- The slots of a PUT are those that follow the occupied ones (R26). -/
theorem State.BufferOk.idx_occupied {s : State} (h : s.BufferOk) (k : Nat) :
    idx s.build s.rd (occupied s + k) = idx s.build s.wr k := by
  rw [h.cursors]; exact (idx_mod _ _ _ _).symm

/-- A successful PUT appends its bytes to the queue (R28). -/
theorem queue_storeValue {s : State} (h : s.BufferOk) {w : Width} {v : Word} (hw : byteCount w ≤ s.fc) :
    queue (storeValue w v s) = queue s ++ (List.range (byteCount w)).map fun k => byteLane v k := by
  have hf := h.fc_le
  have ho : occupied (storeValue w v s) = occupied s + byteCount w := by simp [occupied]; omega
  have ol : occupied s + byteCount w ≤ s.build.N := by unfold occupied; omega
  unfold queue
  rw [ho, List.range_add, List.map_append, List.map_map]
  congr 1
  · apply List.map_congr_left
    intro j hj
    have hj : j < occupied s := by simpa using hj
    simp only [storeValue_mem, storeValue_build, storeValue_rd]
    apply read_memWrite_other
    intro k hk e
    rw [← h.idx_occupied] at e
    have := idx_injective (by omega) (by omega) e
    omega
  · apply List.map_congr_left
    intro k hk
    simp only [Function.comp, storeValue_mem, storeValue_build, storeValue_rd, h.idx_occupied]
    exact read_memWrite_enabled (by omega) (by simpa using hk)

/-- A successful GET removes the oldest bytes from the queue (R28). -/
theorem queue_takeValue {s : State} {w : Width} (hw : s.fc + byteCount w ≤ s.build.N) :
    queue (takeValue w s) = (queue s).drop (byteCount w) := by
  have ho : occupied s = byteCount w + occupied (takeValue w s) := by simp [occupied]; omega
  unfold queue
  rw [ho, List.range_add, List.map_append, List.drop_left' (by simp), List.map_map]
  apply List.map_congr_left
  intro j _
  simp [adv, idx_mod]

theorem queue_take (s : State) {n : Nat} (h : n ≤ occupied s) :
    (queue s).take n = (List.range n).map fun j => s.mem.read (idx s.build s.rd j) := by
  unfold queue
  rw [← List.map_take, List.take_range, Nat.min_eq_left h]

/-! ## The buffer's invariant -/

/-- The buffer's invariant depends on the build and the architectural state alone. -/
theorem State.BufferOk.congr {s t : State} (h : s.BufferOk) (hb : t.build = s.build) (hs : SameBuffer s t) :
    t.BufferOk := by
  obtain ⟨hm, hr, hw, hf⟩ := hs
  refine ⟨by rw [hr, hb]; exact h.rd_lt, by rw [hw, hb]; exact h.wr_lt, by rw [hf, hb]; exact h.fc_le, ?_,
    by rw [hm]; exact h.mem_wf, by rw [hm, hb]; exact h.mem_slots⟩
  rw [hw, hr, hb, h.cursors]
  simp [occupied, hb, hf]

theorem storeValue_bufferOk {s : State} (h : s.BufferOk) {w : Width} {v : Word} (hw : byteCount w ≤ s.fc) :
    (storeValue w v s).BufferOk := by
  have hf := h.fc_le
  refine ⟨h.rd_lt, adv_lt _ _ _, ?_, ?_, memWrite_wf h.mem_wf, memWrite_slots h.mem_slots⟩
  · simp; omega
  · simp only [storeValue_wr, storeValue_rd, storeValue_build, occupied, storeValue_fc, adv]
    rw [h.cursors, Nat.mod_add_mod]; congr 1; unfold occupied; omega

theorem takeValue_bufferOk {s : State} (h : s.BufferOk) {w : Width} (hw : s.fc + byteCount w ≤ s.build.N) :
    (takeValue w s).BufferOk := by
  refine ⟨adv_lt _ _ _, h.wr_lt, by simpa using hw, ?_, h.mem_wf, h.mem_slots⟩
  simp only [takeValue_wr, takeValue_rd, takeValue_build, occupied, takeValue_fc, adv]
  rw [h.cursors, Nat.mod_add_mod]; congr 1; unfold occupied; omega

theorem emptyBuffer_bufferOk (s : State) : (emptyBuffer s).BufferOk :=
  ⟨s.build.N_pos, s.build.N_pos, by simp, by simp [occupied], Memory.wf_nil, by simp⟩

/-- The storage of the reset state is in canonical form, in every build. -/
theorem resetOf_mem_wf (b : Build) : (State.resetOf b).mem.wf := Memory.wf_nil

/-! ## Everything a command can do -/

/-- Everything a command does beside the buffer: it answers a next state, with one response entered, the build and the
inputs as before, and the clear sequencer as before unless the command is INIT. -/
theorem exec_protocol (i : Instr) (s : State) : ∃ t r, exec i s = .next t ∧ RespondsWith s r t ∧
    t.build = s.build ∧ t.rstIn = s.rstIn ∧ t.cmdIn = s.cmdIn ∧
    ((i ≠ .init ∧ t.clrBusy = s.clrBusy ∧ t.clrPtr = s.clrPtr ∧ t.clrCycle = s.clrCycle) ∨
      (i = .init ∧ t.clrBusy = decide (0 < s.build.clrCycles) ∧ t.clrPtr < 2 ^ cursorBits s.build ∧ t.clrCycle = 0 ∧
        t.mem = [] ∧ t.rd = 0 ∧ t.wr = 0 ∧ t.fc = s.build.N)) := by
  rcases exec_kinds i with ⟨w, v, rfl, he⟩ | ⟨w, rfl, he⟩ | ⟨rfl, he⟩ | ⟨rfl, he⟩ <;> rw [he]
  · have hne : decodePut w v ≠ .init := by cases w <;> simp [decodePut]
    by_cases hw : byteCount w ≤ s.fc
    · exact ⟨_, ⟨.ok, _⟩, put_ok hw,
        (respondAny_respondsWith .ok (storeValue w v s)).congr rfl rfl rfl rfl rfl rfl rfl rfl, rfl, rfl, rfl,
        .inl ⟨hne, rfl, rfl, rfl⟩⟩
    · exact ⟨_, ⟨.ecap, _⟩, put_fails (by omega), respondAny_respondsWith .ecap s, rfl, rfl, rfl,
        .inl ⟨hne, rfl, rfl, rfl⟩⟩
  · have hne : decodeGet w ≠ .init := by cases w <;> simp [decodeGet]
    by_cases hw : s.fc + byteCount w ≤ s.build.N
    · exact ⟨_, _, get_ok hw,
        (postResponse_respondsWith _ (takeValue w s)).congr rfl rfl rfl rfl rfl rfl rfl rfl, rfl, rfl, rfl,
        .inl ⟨hne, rfl, rfl, rfl⟩⟩
    · exact ⟨_, ⟨.ecap, _⟩, get_fails (by omega), respondAny_respondsWith .ecap s, rfl, rfl, rfl,
        .inl ⟨hne, rfl, rfl, rfl⟩⟩
  · exact ⟨_, ⟨.eill, _⟩, rfl, respondAny_respondsWith .eill s, rfl, rfl, rfl, .inl ⟨by simp, rfl, rfl, rfl⟩⟩
  · exact ⟨_, ⟨.ok, _⟩, rfl,
      (respondAny_respondsWith .ok (startClear (emptyBuffer s))).congr rfl rfl rfl rfl rfl rfl rfl rfl, rfl, rfl, rfl,
      .inr ⟨rfl, rfl, freePtr_lt (emptyBuffer s), rfl, rfl, rfl, rfl, rfl⟩⟩

end Sys2Proof.Machine
end

