-- ==== Sys2Proof/Tests/Slice0.lean ====
section
/-! SUPPORT. Tests on one step each, their expected values taken from spec/95_test_vectors.md, and for every statement
with hypotheses a witness that meets them. -/

namespace Sys2Proof.Tests

open Sys2Proof.Machine

/-! ## Helpers -/

/-- A build of capacity `n`, with the reference timing of 95_test_vectors.md. -/
def buildOf (n : ℕ+) (clr : Nat) : Build := { cap := n, latRsp := 1, clrCycles := clr }

/-- A storage with the given bytes in slots `a`, `a + 1`, and so on. -/
def memFrom (a : Nat) : List Byte → Memory
  | [] => []
  | x :: rest => Memory.write (memFrom (a + 1) rest) a x

/-- A build of capacity `n` at rest: not clearing, nothing at the inputs, with the buffer given. -/
def buffer (n : ℕ+) (rd wr fc : Nat) (bytes : List Byte) : State :=
  { State.resetOf (buildOf n 2) with rd := rd, wr := wr, fc := fc, mem := memFrom 0 bytes, clrBusy := false }

/-- The bytes of the storage, slot by slot. -/
def bytesOf (s : State) : List Byte := (List.range s.build.N).map s.mem.read

/-- What the vectors give of a command's effect: status, `rd`, `wr`, `fc`, and the storage. -/
def effect : Host.Outcome State Fault Refusal → Option (BitVec 2 × Nat × Nat × Nat × List Byte)
  | .next t => some (t.rspSt, t.rd, t.wr, t.fc, bytesOf t)
  | .fault _ => none
  | .refused _ => none

/-- The same with the response's data, for a GET that succeeds. -/
def valued : Host.Outcome State Fault Refusal → Option (BitVec 2 × Word × Nat × Nat × Nat)
  | .next t => some (t.rspSt, t.rspDat, t.rd, t.wr, t.fc)
  | .fault _ => none
  | .refused _ => none

/-- The state an edge leads to, or the state itself. -/
def edge (s : State) : State := afterEdges 1 s

/-! ## WellFormed: an immediate that does not fit (V7, R72) -/

theorem test_put8_too_wide : AsmLine.wellFormed (.put8 0x100) = false := by decide
theorem test_put16_too_wide : AsmLine.wellFormed (.put16 0x10000) = false := by decide
theorem test_put32_too_wide : AsmLine.wellFormed (.put32 0x100000000) = false := by decide
theorem test_cmd_too_wide : AsmLine.wellFormed (.cmd 0x800000000) = false := by decide
theorem test_widest_lines_fit :
    AsmLine.wellFormed (.put8 0xFF) = true ∧ AsmLine.wellFormed (.put16 0xFFFF) = true ∧
      AsmLine.wellFormed (.put32 0xFFFFFFFF) = true ∧ AsmLine.wellFormed (.cmd 0x7FFFFFFFF) = true := by decide

/-! ## Decoding and assembling (V3 to V7, P1) -/

/-- `000` then `0xDEADBEEF`: PUT8 keeps bits 7..0 (P8-3). -/
theorem test_decode_put8 : decode 0b000_11011110_10101101_10111110_11101111#35 = .put8 0xEF#8 := by decide
/-- `001` then `0xDEADBEEF`: PUT16 keeps bits 15..0 (P16-4). -/
theorem test_decode_put16 : decode 0b001_11011110_10101101_10111110_11101111#35 = .put16 0xBEEF#16 := by decide
/-- `010` then `0x44332211` (P32-1). -/
theorem test_decode_put32 : decode 0b010_01000100_00110011_00100010_00010001#35 = .put32 0x44332211#32 := by decide
theorem test_decode_rsvd : decode 0b011_11011110_10101101_10111110_11101111#35 = .rsvd := by decide
theorem test_decode_get8 : decode 0b100_11111111_11111111_11111111_11111111#35 = .get8 := by decide
theorem test_decode_get16 : decode 0b101_00000000_00000000_00000000_00000000#35 = .get16 := by decide
theorem test_decode_get32 : decode 0b110_00000000_00000000_00000000_00000000#35 = .get32 := by decide
theorem test_decode_init : decode 0b111_11111111_11111111_11111111_11111111#35 = .init := by decide
theorem test_decode_table_word : decodeTableWord 40 0x100001234 = some (.put16 0x1234#16) := by decide
theorem test_decode_36_bits : decodeNat 0x800000000 = .error .notACommandWord := by decide
theorem test_encode_words :
    encode (.put8 0x5A#8) = 0x00000005A#35 ∧ encode (.put16 0x1234#16) = 0x100001234#35 ∧
      encode (.put32 0xDDCCBBAA#32) = 0x2DDCCBBAA#35 ∧ encode .rsvd = 0x300000000#35 ∧
      encode .get8 = 0x400000000#35 ∧ encode .get16 = 0x500000000#35 ∧ encode .get32 = 0x600000000#35 ∧
      encode .init = 0x700000000#35 := by decide
theorem test_assemble_hex : assembleText "PUT8 0x5A ; a byte" = .ok (some 0x00000005A#35) := by decide
theorem test_assemble_decimal : assembleText "PUT32 0" = .ok (some 0x200000000#35) := by decide
theorem test_assemble_cmd : assembleText ".cmd 0x3DEADBEEF" = .ok (some 0x3DEADBEEF#35) := by decide
theorem test_assemble_comment : assembleText "  ; nothing here" = .ok none := by decide
theorem test_assemble_too_wide : assembleText "PUT16 0x10000" = .error .immediateTooWide := by decide
theorem test_assemble_bad_line : assembleText "POP8" = .error .badLine := by decide

/-! ## One command each (V3, V4, V6) -/

/-- P8-2: `wr` wraps. -/
theorem test_put8_wraps : effect (exec (.put8 0xAB) (buffer 8 7 7 8 [])) =
    some (0b00#2, 7, 0, 7, [0, 0, 0, 0, 0, 0, 0, 0xAB]) := by decide
/-- P8-4: full. -/
theorem test_put8_full : effect (exec (.put8 1) (buffer 8 3 3 0 [1, 2, 3, 4, 5, 6, 7, 8])) =
    some (0b01#2, 3, 3, 0, [1, 2, 3, 4, 5, 6, 7, 8]) := by decide
/-- P16-3: split 1+1, low byte first. -/
theorem test_put16_splits : effect (exec (.put16 0xBEEF) (buffer 8 7 7 8 [])) =
    some (0b00#2, 7, 1, 6, [0xBE, 0, 0, 0, 0, 0, 0, 0xEF]) := by decide
/-- P16-7: `N = 2`. -/
theorem test_put16_fills_two_slots : effect (exec (.put16 0x1234) (buffer 2 1 1 2 [])) =
    some (0b00#2, 1, 1, 0, [0x12, 0x34]) := by decide
/-- P32-2: split 3+1. -/
theorem test_put32_splits : effect (exec (.put32 0x44332211) (buffer 8 5 5 8 [])) =
    some (0b00#2, 5, 1, 4, [0x44, 0, 0, 0, 0, 0x11, 0x22, 0x33]) := by decide
/-- P32-5: three slots free. -/
theorem test_put32_no_space : effect (exec (.put32 0x44332211) (buffer 8 0 5 3 [1, 2, 3, 4, 5])) =
    some (0b01#2, 0, 5, 3, [1, 2, 3, 4, 5, 0, 0, 0]) := by decide
/-- G8-3: no sign extension. -/
theorem test_get8_unsigned : valued (exec .get8 (buffer 8 0 1 7 [0xFF])) =
    some (0b00#2, 0x000000FF#32, 1, 1, 8) := by decide
/-- G8-4: empty. -/
theorem test_get8_empty : effect (exec .get8 (buffer 8 5 5 8 [])) =
    some (0b01#2, 5, 5, 8, [0, 0, 0, 0, 0, 0, 0, 0]) := by decide
/-- G16-3: split 1+1. -/
theorem test_get16_splits : valued (exec .get16 (buffer 8 7 1 6 [0xBE, 0, 0, 0, 0, 0, 0, 0xEF])) =
    some (0b00#2, 0x0000BEEF#32, 1, 1, 8) := by decide
/-- G16-5: `N = 1`, where `N < w`. -/
theorem test_get16_one_slot : effect (exec .get16 (buffer 1 0 0 0 [0x5A])) =
    some (0b01#2, 0, 0, 0, [0x5A]) := by decide
/-- G32-4: split 1+3, `wr` equal to `(rd + 4) mod N`. -/
theorem test_get32_splits : valued (exec .get32 (buffer 8 7 3 4 [0x22, 0x33, 0x44, 0, 0, 0, 0, 0x11])) =
    some (0b00#2, 0x44332211#32, 3, 3, 8) := by decide
/-- G32-6: `N = 3`, full. -/
theorem test_get32_three_slots : effect (exec .get32 (buffer 3 0 0 0 [1, 2, 3])) =
    some (0b01#2, 0, 0, 0, [1, 2, 3]) := by decide
/-- V6: INIT from a full buffer. -/
theorem test_init : effect (exec .init (buffer 8 3 3 0 [1, 2, 3, 4, 5, 6, 7, 8])) =
    some (0b00#2, 0, 0, 8, [0, 0, 0, 0, 0, 0, 0, 0]) := by decide
/-- V6: RSVD on `1, 5, 4`. -/
theorem test_rsvd : effect (exec .rsvd (buffer 8 1 5 4 [0, 0xFF, 0xFF, 0xFF, 0xFF])) =
    some (0b10#2, 1, 5, 4, [0, 0xFF, 0xFF, 0xFF, 0xFF, 0, 0, 0]) := by decide

/-- `LAT_RSP = 3`: a response enters the last of the two stages in front of the pending-response register (R175). -/
theorem test_get8_long_latency :
    let s := { buffer 8 0 1 7 [0x5A] with build := { cap := 8, latRsp := 3, clrCycles := 2 }, rspLine := [none, none] }
    ∃ t, exec .get8 s = .next t ∧ t.rspPend = false ∧ t.rspLine = [none, some ⟨.ok, 0x0000005A#32⟩] :=
  ⟨_, rfl, by decide, by decide⟩

/-! ## One edge each (P1 step 12, T1 to T3) -/

/-- A PUT32 presented first after reset. -/
theorem test_step_put32 : effect (step (State.reset.withFetchWord 40 0x2DDCCBBAA)) =
    some (0b00#2, 0, 4, 4, [0xAA, 0xBB, 0xCC, 0xDD, 0, 0, 0, 0]) := by decide
/-- P1 step 12, through the port: split 2+2. -/
theorem test_step_put32_splits :
    effect (step ((buffer 8 4 6 6 [0x10, 0x11, 0x12, 0x13, 0x14, 0x15]).withFetchWord 40 0x2DDCCBBAA)) =
      some (0b00#2, 4, 2, 2, [0xCC, 0xDD, 0x12, 0x13, 0x14, 0x15, 0xAA, 0xBB]) := by decide
/-- T1, cycle 4: the PUT8's response is on the pins while the GET8 is accepted. -/
theorem test_step_back_to_back :
    valued (step ((edge (State.reset.withFetchWord 40 0x0000000AB)).withFetchWord 40 0x400000000)) =
      some (0b00#2, 0x000000AB#32, 1, 1, 8) := by decide
/-- T1, cycle 1: the clear sequence keeps `cmd_ready` low, and the command waits. -/
theorem test_step_clearing :
    cmdReady (State.resetOf Build.reference8) = false ∧
      (edge (State.reset.setInputs [] [some 0x0000000AB#35])).cmdIn = [some 0x0000000AB#35] := by decide
/-- T3, cycle 21: reset wins over PUT8 0x02, and discards the response of PUT8 0x01. -/
theorem test_step_reset_wins :
    let s := (edge ((buffer 8 0 0 8 []).withFetchWord 40 0x000000001)).setInputs [true] [some 0x000000002#35]
    s.rspPend = true ∧ rspValid s = false ∧ (edge s).rspPend = false ∧ (edge s).fc = 8 ∧ (edge s).mem = [] ∧
      (edge s).clrBusy = true ∧ (edge s).cmdIn = [some 0x000000002#35] := by decide

/-! ## Witnesses: states and operands that meet the hypotheses of each statement -/

/-- A buffer of four bytes, wrapped around: `6, 2, 4` (P32-3). -/
def wrapped : State := buffer 8 6 2 4 [0x33, 0x44, 0, 0, 0, 0, 0x11, 0x22]

/-- A full buffer. -/
def full : State := buffer 8 3 3 0 [1, 2, 3, 4, 5, 6, 7, 8]

/-- An empty buffer with its cursors at the last slot. -/
def emptyAt7 : State := buffer 8 7 7 8 [9, 9]

/-- A state that presents a command at rest. -/
def presenting (c : CmdWord) (s : State) : State := s.setInputs [] [some c]

theorem buffer_ok : wrapped.BufferOk ∧ full.BufferOk ∧ emptyAt7.BufferOk :=
  ⟨⟨by decide, by decide, by decide, by decide, by decide, by decide⟩,
    ⟨by decide, by decide, by decide, by decide, by decide, by decide⟩,
    ⟨by decide, by decide, by decide, by decide, by decide, by decide⟩⟩

theorem wrapped_inv : wrapped.Inv :=
  ⟨buffer_ok.1, by decide, by decide, by decide, by decide, by decide⟩

theorem presenting_inv (c : CmdWord) : (presenting c wrapped).Inv :=
  ⟨⟨wrapped_inv.buffer.rd_lt, wrapped_inv.buffer.wr_lt, wrapped_inv.buffer.fc_le, wrapped_inv.buffer.cursors,
      wrapped_inv.buffer.mem_wf, wrapped_inv.buffer.mem_slots⟩,
    wrapped_inv.clear_cycle, wrapped_inv.clear_empty, wrapped_inv.line_length, wrapped_inv.status_driven,
    wrapped_inv.ptr_width⟩

theorem witness_OpcodeMapRows : (0x500000001#35 &&& 0x700000000#35) = matchOf .get16 := by decide

theorem witness_IgnoredBitsHaveNoEffect :
    opField 0x0DEADBEEF#35 = opField 0x0000000EF#35 ∧
      wdataField 0x0DEADBEEF#35 &&& usedBits (decode 0x0DEADBEEF#35) =
        wdataField 0x0000000EF#35 &&& usedBits (decode 0x0DEADBEEF#35) := by decide

theorem witness_RegisterWidthsAreFewest :
    (1 ≤ 3 ∧ Build.reference8.N ≤ 2 ^ 3) ∧ Build.reference8.N < 2 ^ 4 := by decide

theorem witness_ModuloIsOneConditionalSubtraction :
    byteCount .four ≤ Build.reference8.N ∧ 7 < Build.reference8.N ∧ 3 < byteCount .four := by decide

/-- One segment at `d = w = 4` and two at `d = 1`. -/
theorem witness_WraparoundSegments :
    (4 < Build.reference8.N ∧ byteCount .four ≤ Build.reference8.N - 4) ∧
      (7 < Build.reference8.N ∧ byteCount .four ≤ Build.reference8.N ∧ Build.reference8.N - 7 < byteCount .four) ∧
      (0 < 8 - 7 ∧ 1 < byteCount .four ∧ 8 - 7 ≤ 1) := by decide

theorem witness_BankedLanesAreDistinct :
    (Build.reference8.N % 4 = 0 ∧ 7 < Build.reference8.N) ∧ (buildOf 5 2).N = 5 := by decide

/-- `N = w = 4` at the last slot; and at `N = 5` a slot the access leaves alone. -/
theorem witness_MemWriteThenMemRead :
    byteCount .four ≤ (buildOf 4 1).N ∧
      byteCount .four ≤ (buildOf 5 2).N ∧ ∀ k < byteCount .four, idx (buildOf 5 2) 3 k ≠ 2 := by decide

theorem witness_StorageFormIsUnique : ∃ m m' : Memory, m.wf ∧ m'.wf ∧ (∀ a, m.read a = m'.read a) ∧ m ≠ [] :=
  ⟨[(0, 1), (5, 2)], [(0, 1), (5, 2)], by decide, by decide, fun _ => rfl, by decide⟩

theorem witness_Put8Rule :
    opField 0x00000005A#35 = 0b000#3 ∧ 1 ≤ (buffer 8 0 7 1 []).fc ∧ full.fc < 1 := by decide

theorem witness_Put16Rule :
    opField 0x100001234#35 = 0b001#3 ∧
      (2 ≤ (buffer 2 1 1 2 []).fc ∧ (buffer 2 1 1 2 []).fc ≤ (buffer 2 1 1 2 []).build.N) ∧
      (buffer 8 0 7 1 []).fc < 2 := by decide

theorem witness_Put32Rule :
    opField 0x244332211#35 = 0b010#3 ∧
      (4 ≤ (buffer 4 3 3 4 []).fc ∧ (buffer 4 3 3 4 []).fc ≤ (buffer 4 3 3 4 []).build.N) ∧
      (buffer 8 0 5 3 []).fc < 4 := by decide

theorem witness_Get8Rule :
    opField 0x400000000#35 = 0b100#3 ∧ (buffer 8 0 1 7 [5]).fc + 1 ≤ (buffer 8 0 1 7 [5]).build.N ∧
      emptyAt7.build.N < emptyAt7.fc + 1 := by decide

theorem witness_Get16Rule :
    opField 0x500000000#35 = 0b101#3 ∧ (buffer 8 7 1 6 [1]).fc + 2 ≤ (buffer 8 7 1 6 [1]).build.N ∧
      (buffer 8 0 1 7 [5]).build.N < (buffer 8 0 1 7 [5]).fc + 2 := by decide

theorem witness_Get32Rule :
    opField 0x600000000#35 = 0b110#3 ∧ wrapped.fc + 4 ≤ wrapped.build.N ∧
      (buffer 3 0 0 0 [1, 2, 3]).build.N < (buffer 3 0 0 0 [1, 2, 3]).fc + 4 := by decide

theorem witness_InitRule :
    opField 0x7FFFFFFFF#35 = 0b111#3 ∧
      ∃ t, exec .init wrapped = .next t ∧ wrapped.build.clrCycles = 2 ∧ RstLowFor 2 t :=
  ⟨by decide, _, rfl, rfl, fun _ _ => rfl⟩

theorem witness_RsvdRule : 0x3DEADBEEF#35 &&& 0x700000000#35 = 0x300000000#35 := by decide

theorem witness_BoundaryFailures :
    emptyAt7.fc = emptyAt7.build.N ∧ (buffer 8 0 5 3 []).fc < byteCount .four := by decide

theorem witness_CommandsKeepBufferInvariant : wrapped.BufferOk := buffer_ok.1

theorem witness_CommandsRefineByteQueue : wrapped.BufferOk ∧ queue wrapped = [0x11, 0x22, 0x33, 0x44] :=
  ⟨buffer_ok.1, by decide⟩

/-- As many PUTs as fill the buffer. -/
theorem witness_SameWidthFifoOrder :
    emptyAt7.BufferOk ∧ emptyAt7.fc = emptyAt7.build.N ∧
      [0x44332211#32, 0xDDCCBBAA#32].length * byteCount .four ≤ emptyAt7.build.N :=
  ⟨buffer_ok.2.2, by decide, by decide⟩

theorem witness_PutGetRoundTrip :
    emptyAt7.BufferOk ∧ emptyAt7.fc = emptyAt7.build.N ∧ byteCount .four ≤ emptyAt7.build.N :=
  ⟨buffer_ok.2.2, by decide, by decide⟩

/-- The smallest builds that the two clauses take: `N = 3` and `N = 4`. -/
theorem witness_MixedWidthsShareOneStream :
    ((buffer 3 2 2 3 []).BufferOk ∧ (buffer 3 2 2 3 []).fc = (buffer 3 2 2 3 []).build.N ∧
        3 ≤ (buffer 3 2 2 3 []).build.N) ∧
      ((buffer 4 3 3 4 []).BufferOk ∧ (buffer 4 3 3 4 []).fc = (buffer 4 3 3 4 []).build.N ∧
        4 ≤ (buffer 4 3 3 4 []).build.N) :=
  ⟨⟨⟨by decide, by decide, by decide, by decide, by decide, by decide⟩, by decide, by decide⟩,
    ⟨by decide, by decide, by decide, by decide, by decide, by decide⟩, by decide, by decide⟩

theorem witness_EmptyAndFull :
    (emptyAt7.BufferOk ∧ emptyAt7.fc = emptyAt7.build.N) ∧ (full.BufferOk ∧ full.fc = 0) :=
  ⟨⟨buffer_ok.2.2, by decide⟩, buffer_ok.2.1, by decide⟩

/-- The reset state, in its clear sequence; and a state that presents a command. -/
theorem witness_StepKeepsInvariant : State.reset.Inv ∧ (presenting 0x600000000#35 wrapped).Inv :=
  ⟨⟨⟨by decide, by decide, by decide, by decide, by decide, by decide⟩, by decide, by decide, by decide, by decide,
    by decide⟩, presenting_inv _⟩

theorem witness_StepRunsDecodedCommand :
    accepted (presenting 0x600000000#35 wrapped) = some 0x600000000#35 := by decide

/-- An edge that accepts a GET32, one that accepts a PUT8, and one of the clear sequence. -/
theorem witness_OnlyTheirCommandsWriteRegisters :
    (∃ t, step (presenting 0x600000000#35 wrapped) = .next t ∧ t.rd ≠ wrapped.rd) ∧
      (∃ t, step (presenting 0x000000001#35 wrapped) = .next t ∧ t.wr ≠ wrapped.wr) ∧
      decode 0x600000000#35 ≠ .init ∧ decode 0x000000001#35 ≠ .init ∧
      rstPin (presenting 0x600000000#35 wrapped) = false ∧ rstPin (presenting 0x000000001#35 wrapped) = false :=
  ⟨⟨_, rfl, by decide⟩, ⟨_, rfl, by decide⟩, by decide, by decide, by decide, by decide⟩

theorem witness_BuildNeverChanges : ∃ t, step (presenting 0x700000000#35 wrapped) = .next t := ⟨_, rfl⟩

theorem witness_ResetEdgeValues :
    rstPin (wrapped.setInputs [true] [some 0x000000002#35]) = true ∧
      presentedCmd (wrapped.setInputs [true] [some 0x000000002#35]) = some 0x000000002#35 := by decide

theorem witness_ResetHoldsPresentedCommand :
    let s := wrapped.setInputs [true, false, false, false] [some 0x000000002#35]
    rstPin s = true ∧ presentedCmd s = some 0x000000002#35 ∧
      ∀ j, 1 ≤ j → j ≤ s.build.clrCycles + 1 → s.rstIn.getD j false = false := by
  refine ⟨by decide, by decide, fun j h₁ h₂ => ?_⟩
  have hj : j = 1 ∨ j = 2 ∨ j = 3 := by
    have : j ≤ 3 := h₂
    omega
  obtain rfl | rfl | rfl := hj <;> rfl

theorem witness_ClearSequenceLastsClrCycles :
    ∃ t, exec .init wrapped = .next t ∧ RstLowFor (t.build.clrCycles + 1) t ∧ 0 < t.build.clrCycles :=
  ⟨_, rfl, fun _ _ => rfl, by decide⟩

/-- A clear sequence about to start on a full storage, `CLR_CYCLES` just large enough. -/
theorem witness_ClearSequenceZeroesStorage :
    let s := full.setClear true 0 0
    s.clrBusy = true ∧ s.clrCycle = 0 ∧ s.build.N ≤ 4 * s.build.clrCycles ∧ RstLowFor s.build.clrCycles s ∧
      s.mem.read 7 ≠ 0 :=
  ⟨by decide, by decide, by decide, fun _ _ => rfl, by decide⟩

/-- A PUT accepted, a GET accepted, and the clear sequencer running. -/
theorem witness_PortsNeverBothActive :
    (accepted (presenting 0x000000001#35 wrapped) = some 0x000000001#35 ∧
        decode 0x000000001#35 = decodePut .one 1#32 ∧ writeActive (presenting 0x000000001#35 wrapped) = true) ∧
      (accepted (presenting 0x600000000#35 wrapped) = some 0x600000000#35 ∧
        decode 0x600000000#35 = decodeGet .four ∧ readActive (presenting 0x600000000#35 wrapped) = true) ∧
      State.reset.clrBusy = true := by decide

theorem witness_StatusOutputsFollowFreeCount : emptyAt7.BufferOk ∧ stFree emptyAt7 = 8 :=
  ⟨buffer_ok.2.2, by decide⟩

theorem witness_ResponseAfterLatency :
    let s := presenting 0x600000000#35 wrapped
    s.Inv ∧ accepted s = some 0x600000000#35 ∧ RstLowFor ((s.build.latRsp : Nat) + 1) s :=
  ⟨presenting_inv _, by decide, fun _ _ => rfl⟩

/-- A PUT through the write port, the clear sequencer on it, and a buffer that is in order. -/
theorem witness_StorageChangesThroughWritePort :
    (rstPin (presenting 0x000000001#35 wrapped) = false ∧ decode 0x000000001#35 ≠ .init ∧
        ∃ t, step (presenting 0x000000001#35 wrapped) = .next t) ∧
      some ⟨2, 1⟩ ∈ writePort (presenting 0x000000001#35 wrapped) ∧
      some ⟨3, 0⟩ ∈ writePort State.reset ∧ (presenting 0x000000001#35 wrapped).BufferOk :=
  ⟨⟨by decide, by decide, _, rfl⟩, by decide, by decide, (presenting_inv _).buffer⟩

/-- A GET32 of the last four bytes. -/
theorem witness_ReadPortCapturesSlots :
    accepted (presenting 0x600000000#35 wrapped) = some 0x600000000#35 ∧
      decode 0x600000000#35 = decodeGet .four ∧ wrapped.fc + byteCount .four ≤ wrapped.build.N := by decide

theorem witness_IdleKeepsState :
    rstPin wrapped = false ∧ accepted wrapped = none ∧ wrapped.clrBusy = false := by decide

theorem witness_CycleProtocolRefinesCommands :
    (presenting 0x600000000#35 wrapped).Inv ∧ RstLowFor 2 (presenting 0x600000000#35 wrapped) ∧
      acceptedIn 2 (presenting 0x600000000#35 wrapped) = [.get32] :=
  ⟨presenting_inv _, fun _ _ => rfl, by decide⟩

/-- Two states that do differ, in the free slot 4. -/
theorem witness_FreeSlotsCannotBeObserved :
    let s := presenting 0x600000000#35 wrapped
    let u := s.setMem (Memory.write s.mem 4 0xFF)
    s.Inv ∧ SameButFreeSlots s u ∧ s ≠ u :=
  ⟨presenting_inv _, ⟨rfl, by decide⟩, by decide⟩

end Sys2Proof.Tests
end

section
/-! Proofs of the statements about the block's scope (00_scope.md): the register widths of R10, `MemWrite` of R15, and
the build-time parameters of R9. -/

namespace Sys2Proof.Machine

/-! ## Register widths -/

/-- The model's `ceil(log2 n)` is Mathlib's ceiling logarithm. -/
theorem ceilLog2_eq_clog (n : Nat) : ceilLog2 n = Nat.clog 2 n := by
  unfold ceilLog2
  split
  · next h => rw [Nat.clog_of_right_le_one h]
  · next h =>
    refine eq_of_forall_ge_iff fun z => ?_
    calc Nat.log2 (n - 1) + 1 ≤ z
      _ ↔ Nat.log 2 (n - 1) < z := by rw [Nat.log2_eq_log_two, Nat.succ_le_iff]
      _ ↔ n - 1 < 2 ^ z := Nat.log_lt_iff_lt_pow Nat.one_lt_two (by omega)
      _ ↔ n ≤ 2 ^ z := by omega
      _ ↔ Nat.clog 2 n ≤ z := (Nat.clog_le_iff_le_pow Nat.one_lt_two).symm

theorem cursorBits_eq_clog (b : Build) : cursorBits b = max 1 (Nat.clog 2 b.N) := by
  rw [cursorBits, ceilLog2_eq_clog]

theorem countBits_eq_log (b : Build) : countBits b = Nat.log 2 b.N + 1 := by
  rw [countBits, Nat.log2_eq_log_two]

/-- A cursor register of AW bits fits into `n` bits just when `n`, at least 1, bits hold every slot number (R10). -/
theorem cursorBits_le_iff (b : Build) (n : Nat) : cursorBits b ≤ n ↔ 1 ≤ n ∧ b.N ≤ 2 ^ n := by
  rw [cursorBits_eq_clog, max_le_iff, Nat.clog_le_iff_le_pow Nat.one_lt_two]

/-- A free-count register of FW bits fits into `n` bits just when `n` bits hold every count up to `N` (R10). -/
theorem countBits_le_iff (b : Build) (n : Nat) : countBits b ≤ n ↔ b.N < 2 ^ n := by
  rw [countBits_eq_log, Nat.succ_le_iff, Nat.log_lt_iff_lt_pow Nat.one_lt_two b.N_pos.ne']

/-- Settles O7: the two `≤ ↔` laws say both that the widths hold their ranges and that no fewer bits do. -/
theorem registerWidthsAreFewest : Obligations.RegisterWidthsAreFewest := by
  refine ⟨fun b => ?_, by decide, by decide, by decide, by decide⟩
  obtain ⟨cursorPos, cursorHolds⟩ := (cursorBits_le_iff b _).mp le_rfl
  have countHolds : b.N < 2 ^ countBits b := (countBits_le_iff b _).mp le_rfl
  exact ⟨cursorBits_eq_clog b, countBits_eq_log b, cursorHolds, cursorPos,
    fun n hpos hn => (cursorBits_le_iff b n).mpr ⟨hpos, hn⟩,
    countHolds, fun n hn => (countBits_le_iff b n).mpr hn⟩

/-! ## The storage -/

/-- The slots that `MemWrite(c, w, v)` writes read back as the bytes of `v`, least significant first (R15, R42). -/
theorem slots_memWrite {b : Build} {w : Width} (hw : byteCount w ≤ b.N) (m : Memory) (c : Nat) (v : Word) :
    (List.range (byteCount w)).map (fun k => (memWrite b m c w v).read (idx b c k)) =
      leBytes (byteCount w) v.toNat := by
  rw [← byteLanes_eq]
  exact List.map_congr_left fun k hk => read_memWrite_enabled hw (List.mem_range.mp hk)

/-- Settles O11: the written slots hold the value's bytes, whose little-endian sum is the value cut to its width. -/
theorem memWriteThenMemRead : Obligations.MemWriteThenMemRead := by
  intro b m c w v hw
  refine ⟨?_, fun a untouched => read_memWrite_other untouched⟩
  rw [slots_memWrite hw, leNat_leBytes]

/-! ## The build -/

theorem exec_build {i : Instr} {s t : State} (h : exec i s = .next t) : t.build = s.build := by
  obtain ⟨t', _, ht', _, hbuild, _⟩ := exec_protocol i s
  obtain rfl : t' = t := by simpa [ht'] using h
  exact hbuild

/-- Settles O39, by the three kinds of edge: reset, a command, neither. -/
theorem buildNeverChanges : Obligations.BuildNeverChanges := by
  intro s t h
  rcases step_cases s with ⟨_, hs⟩ | ⟨c, _, _, _, hs⟩ | ⟨_, _, hs⟩ <;> rw [hs] at h
  case inl =>
    cases h
    exact resetEdge_build s
  case inr.inl => exact (exec_build h).trans (tick_build s)
  case inr.inr =>
    cases h
    exact tick_build s

end Sys2Proof.Machine
end

section
/-! Proofs of the statements about the block's state (10_state.md), first part: the storage's one form and the status
outputs, as functions of the state alone. -/

namespace Sys2Proof.Machine

/-! ## The storage -/

/-- A slot below every listed one is not listed, and reads as blank. -/
theorem Memory.read_eq_zero_of_lt {m : Memory} {a : Nat} (below : ∀ c ∈ m, a < c.1) : m.read a = 0 := by
  induction m with
  | nil => rfl
  | cons c rest ih =>
    have hc : a ≠ c.1 := (below c (by simp)).ne
    simpa [Memory.read, hc] using ih fun d hd => below d (by simp [hd])

/-- A canonical storage lists exactly its slots that do not read as blank, each with the byte it reads as. -/
theorem Memory.wf.mem_iff {m : Memory} (h : m.wf) (a : Nat) (x : Byte) :
    (a, x) ∈ m ↔ x ≠ 0 ∧ m.read a = x := by
  obtain ⟨sorted, nonzero⟩ := h
  induction m with
  | nil => simpa using fun hx : x ≠ 0 => hx.symm
  | cons c rest ih =>
    obtain ⟨b, y⟩ := c
    obtain ⟨first, sorted⟩ := List.pairwise_cons.mp sorted
    have hy : y ≠ 0 := nonzero (b, y) (by simp)
    have ih := ih sorted fun d hd => nonzero d (by simp [hd])
    by_cases hab : a = b
    · have unlisted : (a, x) ∉ rest := fun hm => (first _ hm).ne hab.symm
      simp only [List.mem_cons, unlisted, or_false, Prod.mk.injEq, Memory.read, if_pos hab]
      grind
    · simp [Memory.read, hab, ih]

/-- Settles O12: two canonical storages that read alike list the same cells, and both list them in rising order. -/
theorem storageFormIsUnique : Obligations.StorageFormIsUnique := by
  intro m m' h h' hread
  have sameCells : ∀ c, c ∈ m ↔ c ∈ m' := fun (a, x) => by rw [h.mem_iff, h'.mem_iff, hread]
  have : Std.Antisymm fun a b : Host.Cell => a.1 < b.1 := ⟨fun _ _ hab hba => absurd hab hba.asymm⟩
  have : Std.Irrefl fun a b : Host.Cell => a.1 < b.1 := ⟨fun _ => lt_irrefl _⟩
  exact h.1.eq_of_mem_iff h'.1 sameCells

/-! ## Occupancy and the status outputs -/

theorem stEmpty_iff (s : State) : stEmpty s = true ↔ s.fc = s.build.N := by simp [stEmpty]

theorem stFull_iff (s : State) : stFull s = true ↔ s.fc = 0 := by simp [stFull]

/-- The number of occupied slots and the free count add up to `N` (R24). -/
theorem State.BufferOk.occupied_add_fc {s : State} (h : s.BufferOk) : occupied s + s.fc = s.build.N :=
  Nat.sub_add_cancel h.fc_le

/-- A cursor moved on by at most `N` slots is back where it was only after none or all of them. -/
theorem eq_add_mod_iff {n c k : Nat} (hc : c < n) (hk : k ≤ n) : c = (c + k) % n ↔ k = 0 ∨ k = n := by
  rcases lt_or_ge (c + k) n with below | wraps
  · rw [Nat.mod_eq_of_lt below]; omega
  · rw [Nat.mod_eq_sub_mod wraps, Nat.mod_eq_of_lt (by omega)]; omega

/-- Settles O31: the cursors' distance is the occupancy, which is 0 or `N` in these two cases alone. -/
theorem emptyAndFull : Obligations.EmptyAndFull := by
  intro s h
  have hocc := h.occupied_add_fc
  refine ⟨?_, ?_, stEmpty_iff s, stFull_iff s, ?_⟩
  · rw [← List.length_eq_zero_iff, queue_length]; omega
  · rw [queue_length]; omega
  · rw [h.cursors, eq_add_mod_iff h.rd_lt (by omega)]; omega

/-- Settles O32: the outputs are read off `fc`, whose range fits FW bits by the law of O7. -/
theorem statusOutputsFollowFreeCount : Obligations.StatusOutputsFollowFreeCount := by
  refine ⟨fun s => ⟨rfl, stEmpty_iff s, stFull_iff s⟩, fun s h => ?_, fun b => ⟨rfl, ?_, ?_⟩⟩
  · exact h.fc_le.trans_lt ((countBits_le_iff s.build _).mp le_rfl)
  · exact (stEmpty_iff _).mpr rfl
  · exact decide_eq_false b.N_pos.ne'

end Sys2Proof.Machine
end

section
/-! Proofs of the statements about the block's state (10_state.md), second part: what the commands do to the buffer, its
invariant and the byte queue it holds. -/

namespace Sys2Proof.Machine

/-! ## The buffer's invariant under a command -/

/-- The response of a command does not touch the buffer. -/
theorem sameBuffer_postResponse (r : Response) (s : State) : SameBuffer s (postResponse r s) := ⟨rfl, rfl, rfl, rfl⟩

theorem sameBuffer_respondAny (st : Status) (s : State) : SameBuffer s (respondAny st s) := ⟨rfl, rfl, rfl, rfl⟩

theorem State.BufferOk.respondAny {s : State} (h : s.BufferOk) (st : Status) : (respondAny st s).BufferOk :=
  h.congr rfl (sameBuffer_respondAny st s)

theorem State.BufferOk.postResponse {s : State} (h : s.BufferOk) (r : Response) : (postResponse r s).BufferOk :=
  h.congr rfl (sameBuffer_postResponse r s)

theorem startClear_bufferOk {s : State} (h : s.BufferOk) : (startClear s).BufferOk :=
  h.congr rfl ⟨rfl, rfl, rfl, rfl⟩

/-- Settles O26, by the kinds of command: a transfer that fails and RSVD leave the buffer alone, INIT empties it. -/
theorem commandsKeepBufferInvariant : Obligations.CommandsKeepBufferInvariant := by
  intro i s h
  rcases exec_kinds i with ⟨w, v, rfl, he⟩ | ⟨w, rfl, he⟩ | ⟨rfl, he⟩ | ⟨rfl, he⟩ <;> rw [he]
  case inl =>
    rcases le_or_gt (byteCount w) s.fc with fits | full
    · exact ⟨_, put_ok fits, (storeValue_bufferOk h fits).respondAny _⟩
    · exact ⟨_, put_fails full, h.respondAny _⟩
  case inr.inl =>
    rcases le_or_gt (s.fc + byteCount w) s.build.N with held | short
    · exact ⟨_, get_ok held, (takeValue_bufferOk h held).postResponse _⟩
    · exact ⟨_, get_fails short, h.respondAny _⟩
  case inr.inr.inl => exact ⟨_, rfl, h.respondAny _⟩
  case inr.inr.inr => exact ⟨_, rfl, (startClear_bufferOk (emptyBuffer_bufferOk s)).respondAny _⟩

/-! ## The reference queue, by the kinds of command -/

@[simp] theorem length_leBytes (n v : Nat) : (leBytes n v).length = n := by simp [leBytes]

theorem operand8_toNat (v : BitVec 8) : (operand8 v).toNat = v.toNat := BitVec.toNat_setWidth_of_le (by omega)

theorem operand16_toNat (v : BitVec 16) : (operand16 v).toNat = v.toNat := BitVec.toNat_setWidth_of_le (by omega)

/-- The reference queue's PUT appends the bytes of the value as the datapath sees it. -/
theorem fifoStep_decodePut (n : Nat) (q : List Byte) (w : Width) (v : Word) :
    fifoStep n q (decodePut w v) = fifoPut n q (leBytes (byteCount w) (lowBytes w v).toNat) := by
  cases w with
  | one => simp only [decodePut, fifoStep, byteCount, lowBytes, operand8_toNat]
  | two => simp only [decodePut, fifoStep, byteCount, lowBytes, operand16_toNat]
  | four => rfl

theorem fifoStep_decodeGet (n : Nat) (q : List Byte) (w : Width) :
    fifoStep n q (decodeGet w) = fifoGet q (byteCount w) := by
  cases w <;> rfl

/-! ## The block against the reference queue -/

/-- The outcome of a command is the reference queue's answer `a`: it completes with that queue and that response. -/
def MatchesAnswer (o : Host.Outcome State Fault Refusal) (a : FifoAnswer) : Prop :=
  ∃ t r, o = .next t ∧ queue t = a.queue ∧ newest t = some r ∧ Answers (a.status, a.value) r

@[simp] theorem queue_respondAny (st : Status) (s : State) : queue (respondAny st s) = queue s := rfl

@[simp] theorem queue_postResponse (r : Response) (s : State) : queue (postResponse r s) = queue s := rfl

@[simp] theorem newest_respondAny (st : Status) (s : State) :
    newest (respondAny st s) = some (statusCode st, Config.anyRdata s.draws) :=
  (respondAny_respondsWith st s).newest_eq

@[simp] theorem newest_postResponse (r : Response) (s : State) :
    newest (postResponse r s) = some (statusCode r.status, r.rdata) :=
  (postResponse_respondsWith r s).newest_eq

/-- A response without a value matches any answer of its status that asks for none. -/
theorem matchesAnswer_respondAny {s : State} {q : List Byte} (st : Status) (hq : queue s = q) :
    MatchesAnswer (.next (respondAny st s)) ⟨q, st, none⟩ :=
  ⟨_, _, rfl, hq, newest_respondAny st s, rfl, fun _ h => nomatch h⟩

/-- A PUT is the reference's: the same bytes are appended under the same condition (R28, R81). -/
theorem put_matchesAnswer {s : State} (h : s.BufferOk) (w : Width) (v : Word) :
    MatchesAnswer (put w v s) (fifoPut s.build.N (queue s) (leBytes (byteCount w) v.toNat)) := by
  have hocc := h.occupied_add_fc
  unfold fifoPut
  rw [queue_length, length_leBytes]
  rcases le_or_gt (byteCount w) s.fc with fits | full
  · rw [if_pos (by omega), put_ok fits]
    exact matchesAnswer_respondAny _ (by rw [queue_storeValue h fits, byteLanes_eq])
  · rw [if_neg (by omega), put_fails full]
    exact matchesAnswer_respondAny _ rfl

/-- The value a successful GET returns is the little-endian number of the oldest bytes (R28, R43). -/
theorem unpack_captured_toNat {s : State} {w : Width} (held : byteCount w ≤ occupied s) :
    (unpack w (captured w s)).toNat = leNat ((queue s).take (byteCount w)) := by
  rw [unpack_toNat, queue_take s held]
  congr 1
  exact List.map_congr_left fun k hk => laneByte_captured w s (List.mem_range.mp hk)

/-- A GET is the reference's: the same bytes are removed and returned under the same condition (R28, R82). -/
theorem get_matchesAnswer {s : State} (h : s.BufferOk) (w : Width) :
    MatchesAnswer (get w s) (fifoGet (queue s) (byteCount w)) := by
  have hocc := h.occupied_add_fc
  unfold fifoGet
  rw [queue_length]
  rcases le_or_gt (s.fc + byteCount w) s.build.N with held | short
  · rw [if_pos (by omega), get_ok held]
    refine ⟨_, _, rfl, queue_takeValue held, newest_postResponse _ _, rfl, fun x hx => ?_⟩
    rw [← Option.some.inj hx]
    exact unpack_captured_toNat (by omega)
  · rw [if_neg (by omega), get_fails short]
    exact matchesAnswer_respondAny _ rfl

/-- Every command is the reference's (R28). -/
theorem exec_matchesAnswer (i : Instr) {s : State} (h : s.BufferOk) :
    MatchesAnswer (exec i s) (fifoStep s.build.N (queue s) i) := by
  rcases exec_kinds i with ⟨w, v, rfl, -⟩ | ⟨w, rfl, -⟩ | ⟨rfl, he⟩ | ⟨rfl, he⟩
  case inl =>
    rw [exec_decodePut, fifoStep_decodePut]
    exact put_matchesAnswer h w _
  case inr.inl =>
    rw [exec_decodeGet, fifoStep_decodeGet]
    exact get_matchesAnswer h w
  case inr.inr.inl =>
    rw [he]
    exact matchesAnswer_respondAny _ rfl
  case inr.inr.inr =>
    rw [he]
    exact matchesAnswer_respondAny _ (queue_eq_nil rfl)

/-- Settles O27: the simulation step of each kind of command, and the queue's length. -/
theorem commandsRefineByteQueue : Obligations.CommandsRefineByteQueue :=
  fun i s h => ⟨queue_length s, exec_matchesAnswer i h⟩

/-! ## Which command writes which part of the buffer -/

/-- A command beside INIT leaves the buffer alone, or is a PUT that fits and leaves `rd`, or is a GET of bytes that are
there and leaves `wr` and the storage (R20 to R23). -/
theorem exec_writes {i : Instr} {s t : State} (h : exec i s = .next t) (hi : i ≠ .init) :
    SameBuffer s t ∨ (∃ w v, i = decodePut w v ∧ byteCount w ≤ s.fc ∧ t.rd = s.rd) ∨
      (∃ w, i = decodeGet w ∧ s.fc + byteCount w ≤ s.build.N ∧ t.wr = s.wr ∧ t.mem = s.mem) := by
  rcases exec_kinds i with ⟨w, v, rfl, he⟩ | ⟨w, rfl, he⟩ | ⟨rfl, he⟩ | ⟨rfl, -⟩
  case inl =>
    rcases put_cases ((he s).symm.trans h) with ⟨fits, rfl⟩ | ⟨-, rfl⟩
    · exact .inr (.inl ⟨w, v, rfl, fits, rfl⟩)
    · exact .inl (sameBuffer_respondAny _ s)
  case inr.inl =>
    rcases get_cases ((he s).symm.trans h) with ⟨held, rfl⟩ | ⟨-, rfl⟩
    · exact .inr (.inr ⟨w, rfl, held, rfl, rfl⟩)
    · exact .inl (sameBuffer_respondAny _ s)
  case inr.inr.inl =>
    cases (he s).symm.trans h
    exact .inl (sameBuffer_respondAny _ s)
  case inr.inr.inr => exact absurd rfl hi

/-- A cycle's own work leaves the cursors and the free count, and the storage too while the clear sequencer rests. -/
theorem tick_sameBuffer {s : State} (rests : s.clrBusy = false) : SameBuffer s (tick s) := by
  simp [SameBuffer, rests]

/-- Settles O38: the accepted command writes as `exec_writes` says, and any other edge writes the storage alone. -/
theorem onlyTheirCommandsWriteRegisters : Obligations.OnlyTheirCommandsWriteRegisters := by
  intro s t hstep hrst hinit isGet isPut
  rcases step_cases s with ⟨hr, -⟩ | ⟨c, -, rests, hacc, hs⟩ | ⟨-, -, hs⟩
  case inl => simp [hr] at hrst
  case inr.inl =>
    obtain ⟨tmem, trd, twr, tfc⟩ := tick_sameBuffer rests
    rcases exec_writes (hs.symm.trans hstep) (hinit c hacc) with
      ⟨hm, hr, hw, hf⟩ | ⟨w, v, hput, fits, hr⟩ | ⟨w, hget, held, hw, hm⟩
    · exact ⟨(absurd (hr.trans trd) ·), (absurd (hw.trans twr) ·), (absurd (hf.trans tfc) ·),
        (absurd (hm.trans tmem) ·)⟩
    · have put : isPut := ⟨c, w, v, hacc, hput, by simpa using fits⟩
      exact ⟨(absurd (hr.trans trd) ·), fun _ => put, fun _ => .inr put, fun _ => .inl put⟩
    · have get : isGet := ⟨c, w, hacc, hget, by simpa using held⟩
      exact ⟨fun _ => get, (absurd (hw.trans twr) ·), fun _ => .inl get, (absurd (hm.trans tmem) ·)⟩
  case inr.inr =>
    cases hs.symm.trans hstep
    refine ⟨(absurd (tick_rd s) ·), (absurd (tick_wr s) ·), (absurd (tick_fc s) ·), fun hmem => .inr ?_⟩
    by_contra rests
    exact hmem (tick_sameBuffer (Bool.eq_false_iff.mpr rests)).1

end Sys2Proof.Machine
end

section
/-! Proofs of the statements about the block's state (10_state.md), third part: what edges do to the invariant, to the
storage in the clear sequence, and to what free slots hold. -/

namespace Sys2Proof.Machine

/-! ## The invariant of the block -/

theorem resetOf_bufferOk (b : Build) : (State.resetOf b).BufferOk :=
  (emptyBuffer_bufferOk (State.resetOf b)).congr rfl ⟨rfl, rfl, rfl, rfl⟩

/-- The stages that a reset leaves are as many as the build has in front of the pending-response register. -/
theorem length_idleStages (b : Build) :
    (List.replicate ((b.latRsp : Nat) - 1) (none : Option Response)).length + 1 = b.latRsp := by
  rw [List.length_replicate]
  exact Nat.sub_add_cancel b.latRsp.pos

/-- Settles O34: an empty buffer, an empty pipeline, and a clear sequence in its cycle 0. -/
theorem resetMeetsInvariant : Obligations.ResetMeetsInvariant := fun b =>
  { buffer := resetOf_bufferOk b
    clear_cycle := of_decide_eq_true
    clear_empty := fun _ => ⟨rfl, rfl, rfl, rfl⟩
    line_length := length_idleStages b
    status_driven := nofun
    ptr_width := Nat.two_pow_pos _ }

theorem resetEdge_inv (s : State) : (resetEdge s).Inv :=
  { buffer := (emptyBuffer_bufferOk s).congr rfl ⟨rfl, rfl, rfl, rfl⟩
    clear_cycle := of_decide_eq_true
    clear_empty := fun _ => ⟨rfl, rfl, rfl, rfl⟩
    line_length := length_idleStages s.build
    status_driven := nofun
    ptr_width := resetEdge_clrPtr_lt s }

/-- The enabled lanes of the clear sequencer's cycle `j` write 0 to the slots `4j` to `4j + 3` that exist (R55). -/
theorem some_mem_clearLanes {b : Build} {j : Nat} {l : WriteLane} :
    some l ∈ clearLanes b j ↔ ∃ k < 4, 4 * j + k < b.N ∧ l = ⟨4 * j + k, 0⟩ := by
  have lanes : ∀ k, k ∈ allLanes ↔ k < 4 := fun k => by simp [allLanes]; omega
  simp [clearLanes, lanes, eq_comm]

theorem clearLanes_zero {b : Build} {j : Nat} {l : WriteLane} (h : some l ∈ clearLanes b j) : l.data = 0 := by
  obtain ⟨k, -, -, rfl⟩ := some_mem_clearLanes.mp h
  rfl

/-- A cycle's own work changes nothing of the buffer when the storage is empty through the clear sequence (log 9). -/
theorem tick_sameBuffer_of_clear_empty {s : State} (h : s.clrBusy = true → s.mem = []) : SameBuffer s (tick s) := by
  cases busy : s.clrBusy with
  | false => exact tick_sameBuffer busy
  | true => simp [SameBuffer, busy, h busy, commitLanes_nil_of_zero fun _ => clearLanes_zero]

/-- What every cycle does keeps the invariant. -/
theorem State.Inv.tick {s : State} (h : s.Inv) : (tick s).Inv := by
  have same : SameBuffer s (Machine.tick s) := tick_sameBuffer_of_clear_empty fun hb => (h.clear_empty hb).1
  have ⟨hmem, hrd, hwr, hfc⟩ := same
  have busy_before : (Machine.tick s).clrBusy = true →
      s.clrBusy = true ∧ s.clrCycle + 1 < s.build.clrCycles := by simp
  refine ⟨h.buffer.congr (tick_build s) same, fun hb => ?_, fun hb => ?_, ?_, fun hp => ?_, ?_⟩
  · obtain ⟨busy, more⟩ := busy_before hb
    simpa [busy] using more
  · rw [hmem, hrd, hwr, hfc, tick_build]
    exact h.clear_empty (busy_before hb).1
  · simpa using h.line_length
  · rw [tick_rspPend, Option.isSome_iff_exists] at hp
    obtain ⟨r, hr⟩ := hp
    simpa [hr] using statusCode_ne r.status
  · rw [tick_build, tick_clrPtr]
    split
    · exact freePtr_lt s
    · exact h.ptr_width

/-- A response that enters the pipeline drives no code `11` where none was driven (R67). -/
theorem RespondsWith.status_driven {s t : State} {r : Response} (h : RespondsWith s r t)
    (hs : s.rspPend = true → s.rspSt ≠ 0b11#2) (ht : t.rspPend = true) : t.rspSt ≠ 0b11#2 := by
  obtain ⟨direct, staged⟩ := h
  by_cases hl : s.rspLine = []
  · obtain ⟨-, -, tst, -⟩ := direct hl
    rw [tst]
    exact statusCode_ne _
  · obtain ⟨-, tpend, tst, -⟩ := staged hl
    rw [tst]
    exact hs (tpend ▸ ht)

/-- A command, which is accepted only outside the clear sequence, keeps the invariant. -/
theorem State.Inv.exec {s : State} (h : s.Inv) (rests : s.clrBusy = false) (i : Instr) :
    ∃ t, exec i s = .next t ∧ t.Inv := by
  obtain ⟨t, r, ht, hr, hbuild, -, -, hclr⟩ := exec_protocol i s
  obtain ⟨t', ht', hbuf⟩ := commandsKeepBufferInvariant i s h.buffer
  obtain rfl : t = t' := by simpa [ht] using ht'
  have hline : t.rspLine.length + 1 = t.build.latRsp := by rw [hr.line_length, hbuild, h.line_length]
  have hstatus := hr.status_driven h.status_driven
  refine ⟨t, ht, ?_⟩
  rcases hclr with ⟨-, hbusy, hptr, -⟩ | ⟨-, hbusy, hptr, hcycle, hempty⟩
  · have resting : ¬ t.clrBusy = true := by simp [hbusy, rests]
    exact ⟨hbuf, fun hb => absurd hb resting, fun hb => absurd hb resting, hline, hstatus,
      by rw [hptr, hbuild]; exact h.ptr_width⟩
  · refine ⟨hbuf, fun hb => ?_, fun _ => ?_, hline, hstatus, by rw [hbuild]; exact hptr⟩
    · rw [hcycle, hbuild]
      exact of_decide_eq_true (hbusy.symm.trans hb)
    · rw [hbuild]
      exact hempty

/-- Settles O35, by the three kinds of edge: reset, a command after the cycle's own work, that work alone. -/
theorem stepKeepsInvariant : Obligations.StepKeepsInvariant := by
  intro s h
  rcases step_cases s with ⟨-, hs⟩ | ⟨c, -, rests, -, hs⟩ | ⟨-, -, hs⟩ <;> rw [hs]
  case inl => exact ⟨_, rfl, resetEdge_inv s⟩
  case inr.inl => exact h.tick.exec (by simp [rests]) (decode c)
  case inr.inr => exact ⟨_, rfl, h.tick⟩

/-! ## Runs of edges -/

/-- Every edge answers a next state, in which the build is the same and the level of `rst` has moved on. -/
theorem step_next (s : State) : ∃ t, step s = .next t ∧ t.build = s.build ∧ t.rstIn = s.rstIn.tail := by
  rcases step_cases s with ⟨-, hs⟩ | ⟨c, -, -, -, hs⟩ | ⟨-, -, hs⟩ <;> rw [hs]
  case inl => exact ⟨_, rfl, rfl, rfl⟩
  case inr.inl =>
    obtain ⟨t, -, ht, -, hbuild, hrst, -⟩ := exec_protocol (decode c) (tick s)
    exact ⟨t, ht, by simpa using hbuild, by simpa using hrst⟩
  case inr.inr => exact ⟨_, rfl, tick_build s, tick_rstIn s⟩

/-- A run of one more edge, from its first edge. -/
theorem afterEdges_of_step {s t : State} (h : step s = .next t) (k : Nat) : afterEdges (k + 1) s = afterEdges k t := by
  simp [afterEdges, h]

/-- A run of one more edge, to its last edge. -/
theorem step_afterEdges (k : Nat) (s : State) : step (afterEdges k s) = .next (afterEdges (k + 1) s) := by
  induction k generalizing s with
  | zero =>
    obtain ⟨t, ht, -⟩ := step_next s
    rw [afterEdges_of_step ht]
    exact ht
  | succ k ih =>
    obtain ⟨t, ht, -⟩ := step_next s
    rw [afterEdges_of_step ht, afterEdges_of_step ht]
    exact ih t

theorem afterEdges_build (k : Nat) (s : State) : (afterEdges k s).build = s.build := by
  induction k generalizing s with
  | zero => rfl
  | succ k ih =>
    obtain ⟨t, ht, hbuild, -⟩ := step_next s
    rw [afterEdges_of_step ht, ih, hbuild]

theorem afterEdges_rstIn (k : Nat) (s : State) : (afterEdges k s).rstIn = s.rstIn.drop k := by
  induction k generalizing s with
  | zero => rfl
  | succ k ih =>
    obtain ⟨t, ht, -, hrst⟩ := step_next s
    rw [afterEdges_of_step ht, ih, hrst, List.drop_tail]

theorem RstLowFor.rstPin_afterEdges {k j : Nat} {s : State} (h : RstLowFor k s) (hj : j < k) :
    rstPin (afterEdges j s) = false := by
  have low := h j hj
  simpa [rstPin, afterEdges_rstIn, List.headD_eq_head?_getD, List.getD_eq_getElem?_getD] using low

/-! ## The clear sequence -/

/-- Lanes that write 0 make a slot read 0 that they address or that did so before. -/
theorem read_commitLanes_eq_zero {m : Memory} {lanes : List (Option WriteLane)} {a : Nat}
    (zero : ∀ l, some l ∈ lanes → l.data = 0) (h : (∃ l, some l ∈ lanes ∧ l.addr = a) ∨ m.read a = 0) :
    (commitLanes m lanes).read a = 0 := by
  induction lanes generalizing m with
  | nil => simpa using h
  | cons l rest ih =>
    have zero' : ∀ l', some l' ∈ rest → l'.data = 0 := fun l' hl' => zero l' (by simp [hl'])
    rw [commitLanes_cons]
    rcases h with ⟨l', hl', ha⟩ | hm
    · rcases List.mem_cons.mp hl' with rfl | hl'
      · exact ih zero' (.inr (by simp [Memory.read_write, ha, zero l']))
      · exact ih zero' (.inl ⟨l', hl', ha⟩)
    · cases l with
      | none => exact ih zero' (.inr hm)
      | some l => exact ih zero' (.inr (by simp [Memory.read_write, hm, zero l]))

/-- `t` is the state after `j` cycles of a clear sequence that started in `s`: no cursor has moved, an empty storage is
empty still, and in any storage the slots below `4 j` are 0 (R35, R55). -/
structure ClearProgress (s t : State) (j : Nat) : Prop where
  rd : t.rd = s.rd
  wr : t.wr = s.wr
  fc : t.fc = s.fc
  busy : t.clrBusy = decide (j < s.build.clrCycles)
  cycle : t.clrCycle = j
  mem_empty : s.mem = [] → t.mem = []
  mem_cleared : ∀ a < s.build.N, a < 4 * j → t.mem.read a = 0

/-- One cycle of the sequencer takes the clear sequence one cycle on. -/
theorem ClearProgress.tick {s t : State} {j : Nat} (h : ClearProgress s t j) (hbuild : t.build = s.build)
    (hj : j < s.build.clrCycles) : ClearProgress s (tick t) (j + 1) := by
  have busy : t.clrBusy = true := by simpa [h.busy] using hj
  have hmem : (Machine.tick t).mem = commitLanes t.mem (clearLanes s.build j) := by simp [busy, h.cycle, hbuild]
  refine ⟨by simp [h.rd], by simp [h.wr], by simp [h.fc], by simp [busy, h.cycle, hbuild], by simp [busy, h.cycle],
    fun he => ?_, fun a ha hlt => ?_⟩
  · rw [hmem, h.mem_empty he, commitLanes_nil_of_zero fun _ => clearLanes_zero]
  · rw [hmem]
    refine read_commitLanes_eq_zero (fun _ => clearLanes_zero) ?_
    rcases lt_or_ge a (4 * j) with before | now
    · exact .inr (h.mem_cleared a ha before)
    · exact .inl ⟨⟨a, 0⟩, some_mem_clearLanes.mpr ⟨a - 4 * j, by omega, by omega, by congr; omega⟩, rfl⟩

/-- The clear sequence runs its course while `rst` is low: no command is accepted in it (R172). -/
theorem clearProgress_afterEdges {s : State} (busy : s.clrBusy = decide (0 < s.build.clrCycles))
    (cycle : s.clrCycle = 0) {j : Nat} (hj : j ≤ s.build.clrCycles) (low : RstLowFor j s) :
    ClearProgress s (afterEdges j s) j := by
  induction j with
  | zero => exact ⟨rfl, rfl, rfl, busy, cycle, id, fun a _ h => absurd h (Nat.not_lt_zero a)⟩
  | succ j ih =>
    have progress := ih (by omega) fun k hk => low k (by omega)
    have running : (afterEdges j s).clrBusy = true := by simpa [progress.busy] using hj
    have quiet := step_quiet (low.rstPin_afterEdges (Nat.lt_succ_self j)) (accepted_busy running)
    have next : afterEdges (j + 1) s = tick (afterEdges j s) := by simpa [step_afterEdges] using quiet
    rw [next]
    exact progress.tick (afterEdges_build j s) hj

/-- Settles O43: after `CLR_CYCLES` cycles the slots below `4 * CLR_CYCLES` are 0, and those are all of them. -/
theorem clearSequenceZeroesStorage : Obligations.ClearSequenceZeroesStorage := by
  intro s busy cycle covers low a ha
  have sequence : s.clrBusy = decide (0 < s.build.clrCycles) := by
    rw [busy, eq_comm, decide_eq_true_iff]
    omega
  exact (clearProgress_afterEdges sequence cycle le_rfl low).mem_cleared a ha (by omega)

/-- An empty storage stays empty through the clear sequence, and so the buffer stays as it is. -/
theorem ClearProgress.sameBuffer {s t : State} {j : Nat} (h : ClearProgress s t j) (empty : s.mem = []) :
    SameBuffer s t :=
  ⟨by rw [h.mem_empty empty, empty], h.rd, h.wr, h.fc⟩

/-- While the sequence has cycles left, `cmd_ready` is low (R172). -/
theorem ClearProgress.cmdReady {s t : State} {j : Nat} (h : ClearProgress s t j) (hj : j < s.build.clrCycles) :
    cmdReady t = false := by
  simp [Machine.cmdReady, h.busy, hj]

theorem decode_of_opField_init {c : CmdWord} (h : opField c = 0b111#3) : decode c = .init := by
  rw [decode_eq, h]
  rfl

/-- Settles O19: the state INIT answers, and the clear sequence that it starts. -/
theorem initRule : Obligations.InitRule := by
  refine ⟨fun c => decode_of_opField_init, fun s => ?_⟩
  have enters := (respondAny_respondsWith .ok (startClear (emptyBuffer s))).congr (s' := s)
    rfl rfl rfl rfl rfl rfl rfl rfl
  refine ⟨_, execInit_eq s, fun _ => rfl, rfl, rfl, rfl, (stEmpty_iff _).mpr rfl, ?_, rfl, rfl, rfl, rfl, rfl, rfl,
    rfl, ⟨_, enters⟩, fun j hj low => ?_⟩
  · exact decide_eq_false s.build.N_pos.ne'
  · have progress := clearProgress_afterEdges (s := respondAny .ok (startClear (emptyBuffer s))) rfl rfl hj low
    exact ⟨progress.sameBuffer rfl, progress.cmdReady⟩

/-! ## Free slots -/

/-- Two storages that agree on a slot agree on it after the same writes. -/
theorem read_commitLanes_congr {m m' : Memory} {a : Nat} (h : m'.read a = m.read a) (lanes : List (Option WriteLane)) :
    (commitLanes m' lanes).read a = (commitLanes m lanes).read a := by
  induction lanes generalizing m m' with
  | nil => exact h
  | cons l rest ih =>
    cases l with
    | none => exact ih h
    | some l => exact ih (by simp only [commitLane_some, Memory.read_write, h])

/-- A storage that holds the queue's bytes of `s` in their slots, whatever it holds elsewhere (R28, R36). -/
def AgreesOnQueue (s : State) (m : Memory) : Prop :=
  ∀ j < occupied s, m.read (idx s.build s.rd j) = s.mem.read (idx s.build s.rd j)

theorem sameButFreeSlots_iff {s u : State} :
    SameButFreeSlots s u ↔ ∃ m, AgreesOnQueue s m ∧ u = s.setMem m := by
  constructor
  · rintro ⟨hu, agree⟩
    exact ⟨u.mem, agree, hu⟩
  · rintro ⟨m, agree, rfl⟩
    exact ⟨rfl, agree⟩

/-- The same outcome but for free slots: both answer a next state, the second being the first with another storage that
agrees on the queue. -/
def SameNextButFreeSlots (o o' : Host.Outcome State Fault Refusal) : Prop :=
  ∃ t m, o = .next t ∧ o' = .next (t.setMem m) ∧ AgreesOnQueue t m

/-- After a PUT the queue's slots are the old ones, which it leaves alone or writes alike, and those it writes. -/
theorem AgreesOnQueue.storeValue {s : State} {m : Memory} (agree : AgreesOnQueue s m) (h : s.BufferOk) {w : Width}
    {v : Word} (fits : byteCount w ≤ s.fc) : AgreesOnQueue (storeValue w v s) (memWrite s.build m s.wr w v) := by
  have hocc := h.occupied_add_fc
  intro j hj
  simp only [storeValue_build, storeValue_rd, storeValue_mem]
  rcases lt_or_ge j (occupied s) with old | new
  · exact read_commitLanes_congr (agree j old) _
  · obtain ⟨k, rfl⟩ := Nat.exists_eq_add_of_le new
    have hk : k < byteCount w := by
      simp only [occupied, storeValue_build, storeValue_fc] at hj hocc ⊢
      omega
    rw [h.idx_occupied, read_memWrite_enabled (by omega) hk, read_memWrite_enabled (by omega) hk]

/-- After a GET the queue's slots are among those before it. -/
theorem AgreesOnQueue.takeValue {s : State} {m : Memory} (agree : AgreesOnQueue s m) {w : Width} :
    AgreesOnQueue (takeValue w s) m := by
  intro j hj
  simp only [takeValue_build, takeValue_rd, takeValue_mem, adv, idx_mod]
  refine agree (byteCount w + j) ?_
  simp only [occupied, takeValue_build, takeValue_fc] at hj ⊢
  omega

/-- A GET of bytes that are there captures occupied slots alone. -/
theorem AgreesOnQueue.captured {s : State} {m : Memory} (agree : AgreesOnQueue s m) {w : Width}
    (held : byteCount w ≤ occupied s) : captured w (s.setMem m) = captured w s := by
  unfold Machine.captured readLanes
  refine congrArg lanesOf (funext fun k => ?_)
  by_cases hk : k < byteCount w
  · simpa [hk] using agree k (by omega)
  · simp [hk]

/-- A command takes states that differ in free slots alone to such states. -/
theorem AgreesOnQueue.exec {s : State} {m : Memory} (agree : AgreesOnQueue s m) (h : s.BufferOk) (i : Instr) :
    SameNextButFreeSlots (exec i s) (exec i (s.setMem m)) := by
  have hocc := h.occupied_add_fc
  rcases exec_kinds i with ⟨w, v, rfl, he⟩ | ⟨w, rfl, he⟩ | ⟨rfl, he⟩ | ⟨rfl, he⟩ <;> rw [he, he]
  case inl =>
    rcases le_or_gt (byteCount w) s.fc with fits | full
    · exact ⟨_, memWrite s.build m s.wr w v, put_ok fits, put_ok (s := s.setMem m) fits, agree.storeValue h fits⟩
    · exact ⟨_, m, put_fails full, put_fails (s := s.setMem m) full, agree⟩
  case inr.inl =>
    rcases le_or_gt (s.fc + byteCount w) s.build.N with held | short
    · refine ⟨_, m, get_ok held, ?_, agree.takeValue (w := w)⟩
      rw [get_ok (s := s.setMem m) held, Machine.takeValue, Machine.takeValue, agree.captured (by omega)]
      rfl
    · exact ⟨_, m, get_fails short, get_fails (s := s.setMem m) short, agree⟩
  case inr.inr.inl => exact ⟨_, m, rfl, rfl, agree⟩
  case inr.inr.inr => exact ⟨_, [], rfl, rfl, fun _ _ => rfl⟩

/-- What every cycle does, with another storage: the same, but for the clear sequencer's writes to that storage. -/
theorem tick_setMem (s : State) (m : Memory) : tick (s.setMem m) =
    (tick s).setMem (if s.clrBusy then commitLanes m (clearLanes s.build s.clrCycle) else m) := by
  rw [tick_eq, tick_eq]
  rfl

theorem AgreesOnQueue.tick {s : State} {m : Memory} (agree : AgreesOnQueue s m) :
    AgreesOnQueue (tick s) (if s.clrBusy then commitLanes m (clearLanes s.build s.clrCycle) else m) := by
  intro j hj
  have hj : j < occupied s := by simpa [occupied] using hj
  rw [tick_build, tick_rd, tick_mem]
  split
  · exact read_commitLanes_congr (agree j hj) _
  · exact agree j hj

/-- An edge takes states that differ in free slots alone to such states. -/
theorem AgreesOnQueue.step {s : State} {m : Memory} (agree : AgreesOnQueue s m) (h : s.Inv) :
    SameNextButFreeSlots (step s) (step (s.setMem m)) := by
  rcases step_cases s with ⟨hr, hs⟩ | ⟨c, -, -, hacc, hs⟩ | ⟨hr, hacc, hs⟩ <;> rw [hs]
  case inl =>
    rw [step_reset (s := s.setMem m) hr]
    exact ⟨_, [], rfl, rfl, fun _ _ => rfl⟩
  case inr.inl =>
    rw [step_command (s := s.setMem m) hacc, tick_setMem]
    exact agree.tick.exec h.tick.buffer (decode c)
  case inr.inr =>
    rw [step_quiet (s := s.setMem m) hr hacc, tick_setMem]
    exact ⟨_, _, rfl, rfl, agree.tick⟩

/-- A run of edges takes states that differ in free slots alone to such states. -/
theorem AgreesOnQueue.afterEdges {s : State} {m : Memory} (agree : AgreesOnQueue s m) (h : s.Inv) (k : Nat) :
    ∃ m', afterEdges k (s.setMem m) = (afterEdges k s).setMem m' := by
  induction k generalizing s m with
  | zero => exact ⟨m, rfl⟩
  | succ k ih =>
    obtain ⟨t, m', hs, hu, agree'⟩ := agree.step h
    obtain ⟨t', ht', hinv⟩ := stepKeepsInvariant s h
    obtain rfl : t = t' := by simpa [hs] using ht'
    rw [afterEdges_of_step hs, afterEdges_of_step hu]
    exact ih agree' hinv

/-- The pins do not show the storage (R170). -/
@[simp] theorem portOut_setMem (s : State) (m : Memory) : portOut (s.setMem m) = portOut s := rfl

/-- Settles O50: the two runs differ in the storage alone, and the pins do not show it. -/
theorem freeSlotsCannotBeObserved : Obligations.FreeSlotsCannotBeObserved := by
  intro k s u h hu
  obtain ⟨m, agree, rfl⟩ := sameButFreeSlots_iff.mp hu
  obtain ⟨m', hrun⟩ := agree.afterEdges h k
  rw [hrun, portOut_setMem]

end Sys2Proof.Machine
end

section
/-! Proofs of the statements about the storage and its ports (20_memory.md), first part: commands and cycles against the
reference queue, over any number of them. -/

namespace Sys2Proof.Machine

/-! ## The reference queue over lists of commands -/

theorem fifoQueueAfter_append (n : Nat) (q : List Byte) (is js : List Instr) :
    fifoQueueAfter n q (is ++ js) = fifoQueueAfter n (fifoQueueAfter n q is) js := by
  induction is generalizing q with
  | nil => rfl
  | cons i is ih => exact ih _

theorem fifoAnswers_append (n : Nat) (q : List Byte) (is js : List Instr) :
    fifoAnswers n q (is ++ js) = fifoAnswers n q is ++ fifoAnswers n (fifoQueueAfter n q is) js := by
  induction is generalizing q with
  | nil => rfl
  | cons i is ih => exact congrArg _ (ih _)

/-! ## The response pipeline in a cycle -/

/-- A cycle's own work leaves the entry of the response pipeline free for the command of its edge (R175). -/
theorem newest_tick (s : State) : newest (tick s) = none := by
  unfold newest
  rw [tick_rspLine, tick_rspPend, arriving]
  cases s.rspLine with
  | nil => rfl
  | cons stage rest => simp

/-- A cycle's own work takes from the responses in flight the one on the pins, and no other (R175). -/
theorem presented_append_inFlight_tick {s : State} (low : rstPin s = false) :
    (presented s).toList ++ inFlight (tick s) = inFlight s := by
  have pins : (presented s).toList = if s.rspPend then [(s.rspSt, s.rspDat)] else [] := by
    unfold presented rspValid
    cases s.rspPend <;> simp [low]
  unfold inFlight
  rw [pins, tick_rspPend, tick_rspSt, tick_rspDat, tick_rspLine, arriving]
  congr 1
  rcases s.rspLine with _ | ⟨_ | r, rest⟩ <;> simp

/-- A response that enters the pipeline where its entry is free is the last one in flight. -/
theorem RespondsWith.inFlight_eq {s t : State} {r : Response} (h : RespondsWith s r t) (free : newest s = none) :
    inFlight t = inFlight s ++ [(statusCode r.status, r.rdata)] := by
  obtain ⟨direct, staged⟩ := h
  rcases List.eq_nil_or_concat s.rspLine with hl | ⟨line, last, hl⟩
  · obtain ⟨tline, tpend, tst, tdat⟩ := direct hl
    have idle : s.rspPend = false := by simpa [newest, hl] using free
    simp [inFlight, tline, tpend, tst, tdat, hl, idle]
  · obtain ⟨tline, tpend, tst, tdat⟩ := staged (by simp [hl])
    obtain rfl : last = none := by simpa [newest, hl] using free
    simp [inFlight, tline, tpend, tst, tdat, hl]

/-! ## Cycles against the reference queue -/

/-- `t` is a state that a run from `s` leads to which takes the commands `is` and presents the responses `shown`: the
queue is the reference's, and the responses shown, then those in flight, are those in flight in `s`, then the
reference's answers in order. -/
def RunRefinesQueue (s t : State) (is : List Instr) (shown : List (BitVec 2 × Word)) : Prop :=
  queue t = fifoQueueAfter s.build.N (queue s) is ∧
    ∃ rs, shown ++ inFlight t = inFlight s ++ rs ∧ List.Forall₂ Answers (fifoAnswers s.build.N (queue s) is) rs

theorem RunRefinesQueue.refl (s : State) : RunRefinesQueue s s [] [] :=
  ⟨rfl, [], by simp, .nil⟩

theorem RunRefinesQueue.trans {s t u : State} {is js : List Instr} {shown shown' : List (BitVec 2 × Word)}
    (first : RunRefinesQueue s t is shown) (second : RunRefinesQueue t u js shown') (hb : t.build = s.build) :
    RunRefinesQueue s u (is ++ js) (shown ++ shown') := by
  obtain ⟨hq, rs, hrs, answers⟩ := first
  obtain ⟨hq', rs', hrs', answers'⟩ := second
  rw [hb, hq] at hq' answers'
  refine ⟨by rw [hq', fifoQueueAfter_append], rs ++ rs', ?_, ?_⟩
  · rw [List.append_assoc, hrs', ← List.append_assoc, hrs, List.append_assoc]
  · rw [fifoAnswers_append]
    exact List.rel_append answers answers'

/-- A cycle's own work takes no command, and presents what is on the pins. -/
theorem RunRefinesQueue.tick {s : State} (h : s.Inv) (low : rstPin s = false) :
    RunRefinesQueue s (tick s) [] (presented s).toList := by
  obtain ⟨hmem, hrd, -, hfc⟩ := tick_sameBuffer_of_clear_empty fun busy => (h.clear_empty busy).1
  refine ⟨queue_congr (tick_build s) hrd hfc fun j _ => by rw [hmem], [], ?_, .nil⟩
  rw [presented_append_inFlight_tick low, List.append_nil]

/-- A command answers as the reference does, its response the last one in flight when the entry of the pipeline is free
(R28). -/
theorem RunRefinesQueue.exec {s t : State} {i : Instr} (h : s.BufferOk) (free : newest s = none)
    (ht : exec i s = .next t) : RunRefinesQueue s t [i] [] := by
  obtain ⟨t', r, ht', enters, -⟩ := exec_protocol i s
  obtain rfl : t' = t := by simpa [ht'] using ht
  obtain ⟨t'', r', ht'', hq, hr', answers⟩ := exec_matchesAnswer i h
  obtain rfl : t'' = t' := by simpa [ht''] using ht
  obtain rfl : _ = r' := Option.some.inj (enters.newest_eq.symm.trans hr')
  exact ⟨hq, [_], enters.inFlight_eq free, .cons answers .nil⟩

/-- One edge without reset refines the command it accepts, or none. -/
theorem RunRefinesQueue.step {s t : State} (h : s.Inv) (low : rstPin s = false) (ht : step s = .next t) :
    RunRefinesQueue s t ((accepted s).map decode).toList (presented s).toList := by
  rcases step_cases s with ⟨high, -⟩ | ⟨c, -, -, hacc, hs⟩ | ⟨-, hacc, hs⟩
  case inl => simp [low] at high
  case inr.inl =>
    rw [hs] at ht
    have whole := (RunRefinesQueue.tick h low).trans (.exec h.tick.buffer (newest_tick s) ht) (tick_build s)
    simpa [hacc] using whole
  case inr.inr =>
    cases hs.symm.trans ht
    simpa [hacc] using RunRefinesQueue.tick h low

theorem RstLowFor.tail {k : Nat} {s t : State} (h : RstLowFor (k + 1) s) (hrst : t.rstIn = s.rstIn.tail) :
    RstLowFor k t := fun j hj => by
  simpa [hrst, List.getD_eq_getElem?_getD] using h (j + 1) (by omega)

/-- Settles O49, by induction on the number of cycles: a run is its first edge and a run of the cycles after it. -/
theorem cycleProtocolRefinesCommands : Obligations.CycleProtocolRefinesCommands := by
  intro k
  induction k with
  | zero => exact fun s _ _ => RunRefinesQueue.refl s
  | succ k ih =>
    intro s h low
    obtain ⟨t, ht, hbuild, hrst⟩ := step_next s
    obtain ⟨t', ht', hinv⟩ := stepKeepsInvariant s h
    obtain rfl : t' = t := by simpa [ht'] using ht
    have edge : afterEdges 1 s = t' := afterEdges_of_step ht 0
    have first := RunRefinesQueue.step h (low.rstPin_afterEdges (Nat.succ_pos k)) ht
    have later : RunRefinesQueue t' (afterEdges k t') (acceptedIn k t') (presentedIn k t') :=
      ih t' hinv (low.tail hrst)
    have whole := first.trans later hbuild
    rwa [← afterEdges_of_step ht, ← edge] at whole

/-! ## Commands one after another against the reference queue -/

/-- Commands taken one after another give the reference's answers, in order (R28, R181). -/
theorem runCommands_answers (is : List Instr) {s : State} (h : s.BufferOk) :
    List.Forall₂ Answers (fifoAnswers s.build.N (queue s) is) (runCommands is s).1 := by
  induction is generalizing s with
  | nil => exact .nil
  | cons i is ih =>
    obtain ⟨t, r, ht, hq, hr, answers⟩ := exec_matchesAnswer i h
    obtain ⟨t', ht', hbuf⟩ := commandsKeepBufferInvariant i s h
    obtain rfl : t' = t := by simpa [ht'] using ht
    have later := ih hbuf
    rw [exec_build ht, hq] at later
    simpa [runCommands, ht, hr, fifoAnswers] using ⟨answers, later⟩

/-- An answer with a value leaves the response no choice. -/
theorem Answers.eq_of_value {st : Status} {x : Nat} {r : BitVec 2 × Word} (h : Answers (st, some x) r) :
    r = (statusCode st, BitVec.ofNat 32 x) := by
  obtain ⟨hst, hval⟩ := h
  exact Prod.ext hst (BitVec.eq_of_toNat_eq (by simp [← hval x rfl]))

/-- Responses to answers that all have a value are those values. -/
theorem eq_map_of_answers_values {as : List (Status × Nat)} {rs : List (BitVec 2 × Word)}
    (h : List.Forall₂ Answers (as.map fun a => (a.1, some a.2)) rs) :
    rs = as.map fun a => (statusCode a.1, BitVec.ofNat 32 a.2) := by
  induction as generalizing rs with
  | nil => simpa using h
  | cons a as ih =>
    obtain ⟨r, rest, hr, hrest, rfl⟩ := List.forall₂_cons_left_iff.mp h
    rw [hr.eq_of_value, ih hrest, List.map_cons]

/-- Where the reference's answers after the first `n` all have a value, the responses are those values. -/
theorem runCommands_drop_eq {is : List Instr} {n : Nat} {as : List (Status × Nat)} {s : State} (h : s.BufferOk)
    (reference : (fifoAnswers s.build.N (queue s) is).drop n = as.map fun a => (a.1, some a.2)) :
    (runCommands is s).1.drop n = as.map fun a => (statusCode a.1, BitVec.ofNat 32 a.2) :=
  eq_map_of_answers_values (reference ▸ List.forall₂_drop n (runCommands_answers is h))

/-! ## Bytes of a stream -/

/-- The bytes of a value are those of its low part and then those of the rest (R42, R43). -/
theorem leBytes_add (m n v : Nat) : leBytes (m + n) v = leBytes m v ++ leBytes n (v / 256 ^ m) := by
  simp [leBytes, List.range_add, Function.comp_def, Nat.div_div_eq_div_mul, Nat.pow_add]

/-- A put of bytes that fit. -/
theorem fifoPut_fits {n : Nat} {q bytes : List Byte} (h : q.length + bytes.length ≤ n) :
    fifoPut n q bytes = ⟨q ++ bytes, .ok, none⟩ := if_pos h

/-- A get of as many bytes as stand first in the queue for one value. -/
theorem fifoGet_leBytes_append (w v : Nat) (q : List Byte) :
    fifoGet (leBytes w v ++ q) w = ⟨q, .ok, some (v % 256 ^ w)⟩ := by
  have held : w ≤ (leBytes w v ++ q).length := by simp
  rw [fifoGet, if_pos held, List.drop_left' (length_leBytes w v), List.take_left' (length_leBytes w v), leNat_leBytes]

theorem fifoGet_leBytes (w v : Nat) : fifoGet (leBytes w v) w = ⟨[], .ok, some (v % 256 ^ w)⟩ := by
  simpa using fifoGet_leBytes_append w v []

/-- Bits of a value, zero-extended to the data path, as a natural number (R43). -/
theorem extract_setWidth_eq {n : Nat} (v : BitVec n) (lo w : Nat) :
    (v.extractLsb' lo w).setWidth 32 = BitVec.ofNat 32 (v.toNat / 2 ^ lo % 2 ^ w) := by
  apply BitVec.eq_of_toNat_eq
  simp [Nat.shiftRight_eq_div_pow]

/-- Settles O30: the reference queue's answers to R45's two programs, read off the bytes of the values put. -/
theorem mixedWidthsShareOneStream : Obligations.MixedWidthsShareOneStream := by
  refine ⟨fun s x y h empty fits => ?_, fun s v h empty fits => ?_⟩
  · have one_fits : 1 ≤ s.build.N := by omega
    have x_byte : x.toNat % 256 = x.toNat := Nat.mod_eq_of_lt x.isLt
    rw [runCommands_drop_eq h
      (as := [(.ok, x.toNat), (.ok, y.toNat % 256), (.ok, y.toNat / 256 % 256)])]
    · simp [extract_setWidth_eq, statusCode]
    · simp [queue_eq_nil empty, fifoAnswers, fifoStep, fifoPut_fits, fits, one_fits, leBytes_add 1 1,
        fifoGet_leBytes_append, fifoGet_leBytes, x_byte]
  · rw [runCommands_drop_eq h (as := [(.ok, v.toNat % 65536), (.ok, v.toNat / 65536 % 65536)])]
    · simp [extract_setWidth_eq, statusCode]
    · simp [queue_eq_nil empty, fifoAnswers, fifoStep, fifoPut_fits, fits, leBytes_add 2 2,
        fifoGet_leBytes_append, fifoGet_leBytes]

end Sys2Proof.Machine
end

section
/-! Proofs of the statements about the storage and its ports (20_memory.md), second part: the banked realisation, and the
RAM's write port and read port at an edge. -/

namespace Sys2Proof.Machine

/-! ## The banked realisation -/

/-- When 4 divides `N` the wraparound does not move a slot to another bank (R59). -/
theorem bankOf_idx {b : Build} (h : b.N % 4 = 0) (c k : Nat) : bankOf (idx b c k) = (c + k) % 4 :=
  Nat.mod_mod_of_dvd _ (Nat.dvd_of_mod_eq_zero h)

theorem bankRow_idx_lt {b : Build} (h : b.N % 4 = 0) (c k : Nat) : bankRow (idx b c k) < b.N / 4 :=
  Nat.div_lt_div_of_lt_of_dvd (Nat.dvd_of_mod_eq_zero h) (idx_lt b c k)

/-- Settles O10: four lanes in a row differ mod 4, and so in their banks; the example is computed. -/
theorem bankedLanesAreDistinct : Obligations.BankedLanesAreDistinct := by
  refine ⟨fun b c hN _ => ⟨fun k _ => ⟨bankOf_idx hN c k, bankRow_idx_lt hN c k⟩, fun j hj k hk same => ?_⟩,
    fun b hN => ?_⟩
  · rw [bankOf_idx hN, bankOf_idx hN] at same
    omega
  · simp [allLanes, idx, bankOf, hN]

/-! ## The ports, by the command accepted -/

theorem decodePut_ne_decodeGet (w w' : Width) (v : Word) : decodePut w v ≠ decodeGet w' := by
  cases w <;> cases w' <;> simp [decodePut, decodeGet]

theorem writePort_busy {s : State} (busy : s.clrBusy = true) : writePort s = clearLanes s.build s.clrCycle :=
  if_pos busy

/-- An accepted PUT drives the write port (R55). -/
theorem writePort_put {s : State} {c : CmdWord} {w : Width} {v : Word} (hacc : accepted s = some c)
    (hput : decode c = decodePut w v) : writePort s = putPort s w (lowBytes w v) := by
  have rests : s.clrBusy = false := (accepted_eq_some.mp hacc).2.1
  unfold writePort
  rw [rests, hacc, Option.map_some, hput]
  cases w <;> rfl

/-- Outside the clear sequence nothing but a PUT drives the write port (R55). -/
theorem writePort_idle {s : State} (rests : s.clrBusy = false)
    (noPut : ∀ w v, (accepted s).map decode ≠ some (decodePut w v)) : writePort s = idleLanes := by
  unfold writePort
  rw [rests]
  rcases h : (accepted s).map decode with _ | i
  case none => rfl
  case some =>
    rcases exec_kinds i with ⟨w, v, rfl, -⟩ | ⟨w, rfl, -⟩ | ⟨rfl, -⟩ | ⟨rfl, -⟩
    case inl => exact absurd h (noPut w v)
    case inr.inl => cases w <;> rfl
    case inr.inr.inl => rfl
    case inr.inr.inr => rfl

/-- Nothing but a GET drives the read port (R56). -/
theorem readActive_idle {s : State} (noGet : ∀ w, (accepted s).map decode ≠ some (decodeGet w)) :
    readActive s = false := by
  unfold readActive
  rcases h : (accepted s).map decode with _ | i
  case none => rfl
  case some =>
    rcases exec_kinds i with ⟨w, v, rfl, -⟩ | ⟨w, rfl, -⟩ | ⟨rfl, -⟩ | ⟨rfl, -⟩
    case inl => cases w <;> rfl
    case inr.inl => exact absurd h (noGet w)
    case inr.inr.inl => rfl
    case inr.inr.inr => rfl

/-- The write port's lanes in any cycle: the clear sequencer's, those of a PUT that fits, or none enabled (R55). -/
theorem writePort_cases (s : State) :
    writePort s = clearLanes s.build s.clrCycle ∨
    (∃ w v, byteCount w ≤ s.fc ∧ writePort s = putLanes s.build s.wr w v) ∨
    writePort s = idleLanes := by
  cases rests : s.clrBusy with
  | true => exact .inl (writePort_busy rests)
  | false =>
    by_cases isPut : ∃ w v, (accepted s).map decode = some (decodePut w v)
    · obtain ⟨w, v, hput⟩ := isPut
      obtain ⟨c, hacc, hput⟩ := Option.map_eq_some_iff.mp hput
      rw [writePort_put hacc hput]
      by_cases fits : byteCount w ≤ s.fc
      · exact .inr (.inl ⟨w, lowBytes w v, fits, by simp [putPort, putOk, fits]⟩)
      · exact .inr (.inr (by simp [putPort, putOk, fits]))
    · push Not at isPut
      exact .inr (.inr (writePort_idle rests isPut))

/-! ## One port at a time -/

/-- Settles O45: the ports follow the one command that a cycle accepts, and the sequencer's cycles accept none. -/
theorem portsNeverBothActive : Obligations.PortsNeverBothActive := by
  refine fun s => ⟨fun ⟨writes, reads⟩ => ?_, fun c w v hacc hput => ?_, fun c w hacc hget => ?_, fun busy => ?_⟩
  · have none_both := portConflict_eq_false s
    simp [portConflict, writes, reads] at none_both
  · exact readActive_idle fun w' => by simpa [hacc, hput] using decodePut_ne_decodeGet w w' v
  · have idle : writePort s = idleLanes := writePort_idle (accepted_eq_some.mp hacc).2.1 fun w' v => by
      simpa [hacc, hget] using (decodePut_ne_decodeGet w' w v).symm
    rw [writeActive, idle]
    rfl
  · have no_command := accepted_busy busy
    exact ⟨by simp [cmdReady, busy], no_command, readActive_idle (by simp [no_command])⟩

/-- Settles O36: the ports' conflict, the one fault, is in no case of a step. -/
theorem stepNeverStops : Obligations.StepNeverStops := by
  refine ⟨fun s => ?_, fun k s j _ => ⟨_, step_afterEdges j s⟩⟩
  obtain ⟨t, ht, -⟩ := step_next s
  exact ⟨t, ht⟩

/-! ## The write port and the storage -/

@[simp] theorem commitLanes_idle (m : Memory) : commitLanes m idleLanes = m := rfl

@[simp] theorem putPort_tick (s : State) (w : Width) (v : Word) : putPort (tick s) w v = putPort s w v := by
  simp [putPort, putOk]

/-- A PUT changes the storage by its write port's lanes, which are disabled when it fails (R55, R86). -/
theorem put_mem {w : Width} {v : Word} {s t : State} (h : put w v s = .next t) :
    t.mem = commitLanes s.mem (putPort s w v) := by
  rcases put_cases h with ⟨fits, rfl⟩ | ⟨full, rfl⟩
  · simp [putPort, putOk, fits, memWrite]
  · simp [putPort, putOk, Nat.not_le.mpr full]

/-- A command that is no PUT and not INIT leaves the storage alone (R20). -/
theorem exec_mem {i : Instr} {s t : State} (h : exec i s = .next t) (hi : i ≠ .init)
    (noPut : ∀ w v, i ≠ decodePut w v) : t.mem = s.mem := by
  rcases exec_writes h hi with ⟨hmem, -⟩ | ⟨w, v, hput, -⟩ | ⟨_, -, -, -, hmem⟩
  · exact hmem
  · exact absurd hput (noPut w v)
  · exact hmem

/-- An accepted command beside INIT changes the storage by the write port's lanes alone (R55). -/
theorem exec_mem_writePort {s t : State} {c : CmdWord} (hacc : accepted s = some c) (hi : decode c ≠ .init)
    (h : exec (decode c) (tick s) = .next t) : t.mem = commitLanes s.mem (writePort s) := by
  have rests : s.clrBusy = false := (accepted_eq_some.mp hacc).2.1
  have before : (tick s).mem = s.mem := (tick_sameBuffer rests).1
  by_cases isPut : ∃ w v, decode c = decodePut w v
  · obtain ⟨w, v, hput⟩ := isPut
    rw [hput, exec_decodePut] at h
    rw [writePort_put hacc hput, put_mem h, putPort_tick, before]
  · push Not at isPut
    rw [exec_mem h hi isPut, before, writePort_idle rests (by simpa [hacc] using isPut), commitLanes_idle]

/-- A cycle that accepts no command changes the storage by the clear sequencer's lanes alone (R55). -/
theorem tick_mem_writePort {s : State} (hacc : accepted s = none) :
    (tick s).mem = commitLanes s.mem (writePort s) := by
  rw [tick_mem]
  split
  · next busy => rw [writePort_busy busy]
  · next rests => rw [writePort_idle (Bool.eq_false_iff.mpr rests) (by simp [hacc]), commitLanes_idle]

/-- Lanes of which no two enabled ones address one slot have pairwise distinct enabled slots. -/
theorem pairwise_enabled {enabled : Nat → Prop} [DecidablePred enabled] {lane : Nat → WriteLane}
    (h : ∀ j k, enabled j → enabled k → (lane j).addr = (lane k).addr → j = k) :
    ((allLanes.map fun k => if enabled k then some (lane k) else none).filterMap id).Pairwise
      fun l l' => l.addr ≠ l'.addr := by
  rw [List.filterMap_map, List.pairwise_filterMap]
  have distinct : allLanes.Nodup := by decide
  refine distinct.imp fun {j k} hne l hl l' hl' same => hne ?_
  obtain ⟨hj, rfl⟩ : enabled j ∧ lane j = l := by simpa using hl
  obtain ⟨hk, rfl⟩ : enabled k ∧ lane k = l' := by simpa using hl'
  exact h j k hj hk same

/-- The slots that the write port's enabled lanes write are distinct (R55). -/
theorem pairwise_writePort {s : State} (h : s.BufferOk) :
    ((writePort s).filterMap id).Pairwise fun l l' => l.addr ≠ l'.addr := by
  have hfc := h.fc_le
  rcases writePort_cases s with clear | ⟨w, v, fits, put⟩ | idle
  · rw [clear]
    exact pairwise_enabled fun j k _ _ same => Nat.add_left_cancel same
  · rw [put]
    exact pairwise_enabled fun j k hj hk same => idx_injective (by omega) (by omega) same
  · rw [idle]
    exact .nil

theorem addr_lt_of_mem_writePort {s : State} {l : WriteLane} (h : some l ∈ writePort s) : l.addr < s.build.N := by
  rcases writePort_cases s with clear | ⟨w, v, -, put⟩ | idle
  · obtain ⟨k, -, exists_slot, rfl⟩ := some_mem_clearLanes.mp (clear ▸ h)
    exact exists_slot
  · obtain ⟨k, -, rfl⟩ := some_mem_putLanes.mp (put ▸ h)
    exact idx_lt _ _ _
  · exact absurd (idle ▸ h) idleLanes_none

/-- Settles O46: an accepted PUT and the clear sequencer write through the port, and no other edge writes. -/
theorem storageChangesThroughWritePort : Obligations.StorageChangesThroughWritePort := by
  refine ⟨fun s t low notInit hstep => ?_, fun s h => ⟨pairwise_writePort h, fun l => addr_lt_of_mem_writePort⟩⟩
  rcases step_cases s with ⟨high, -⟩ | ⟨c, -, -, hacc, hs⟩ | ⟨-, hacc, hs⟩
  case inl => simp [low] at high
  case inr.inl => exact exec_mem_writePort hacc (notInit c hacc) (hs.symm.trans hstep)
  case inr.inr =>
    cases hs.symm.trans hstep
    exact tick_mem_writePort hacc

/-! ## The read port -/

/-- Settles O47: the GET runs on the storage as it stood before the edge, and its response is the captured lanes'
value. -/
theorem readPortCapturesSlots : Obligations.ReadPortCapturesSlots := by
  intro s c w hacc hget held
  have rests : s.clrBusy = false := (accepted_eq_some.mp hacc).2.1
  have held' : (tick s).fc + byteCount w ≤ (tick s).build.N := by simpa using held
  have hstep := step_command hacc
  rw [hget, exec_decodeGet, get_ok held'] at hstep
  refine ⟨_, hstep, fun k hk => ?_, _, newest_postResponse _ _, unpack_toNat w _⟩
  rw [postResponse_ramRdata, takeValue_ramRdata, laneByte_captured w _ hk]
  simp [rests]

end Sys2Proof.Machine
end

section
/-! Proofs of the statements about the encoding (30_encoding.md): the command word and its two fields, the opcode map,
RSVD, the assembler and the response word. -/

namespace Sys2Proof

open Machine

/-! ## The fields of a command word -/

/-- A word is determined by its two fields, and determines them (R60). -/
theorem cmdWord_inj {o o' : BitVec 3} {d d' : Word} : cmdWord o d = cmdWord o' d' ↔ o = o' ∧ d = d' := by
  constructor
  · intro h
    have hop := congrArg opField h
    have hdata := congrArg wdataField h
    rw [opField_cmdWord, opField_cmdWord] at hop
    rw [wdataField_cmdWord, wdataField_cmdWord] at hdata
    exact ⟨hop, hdata⟩
  · rintro ⟨rfl, rfl⟩
    rfl

/-- Masking a word masks its two fields apart. -/
theorem cmdWord_and (o o' : BitVec 3) (d d' : Word) :
    cmdWord o d &&& cmdWord o' d' = cmdWord (o &&& o') (d &&& d') := by
  have hop : opField (cmdWord o d &&& cmdWord o' d') = o &&& o' := by
    rw [opField, BitVec.extractLsb'_and, ← opField, ← opField, opField_cmdWord, opField_cmdWord]
  have hdata : wdataField (cmdWord o d &&& cmdWord o' d') = d &&& d' := by
    rw [wdataField, BitVec.extractLsb'_and, ← wdataField, ← wdataField, wdataField_cmdWord, wdataField_cmdWord]
  rw [← cmdWord_fields (cmdWord o d &&& cmdWord o' d'), hop, hdata]

/-- The mask of R63 with data bits beside it, as a word. -/
theorem opMask_or (u : Word) : opMask ||| u.setWidth 35 = cmdWord 0b111#3 u := rfl

/-- A row's match value is the word of its op field with no data (R63). -/
theorem matchOf_eq (i : Instr) : matchOf i = cmdWord (opOf i) 0 := by
  simp [matchOf, cmdWord]

theorem and_opMask_eq (c : CmdWord) : c &&& opMask = cmdWord (opField c) 0 := by
  simp [and_opMask, cmdWord]

/-! ## Decoding, by the kinds of command -/

/-- A decoded word is a PUT of its data field's low bytes, a GET, RSVD or INIT. -/
theorem decode_kinds (c : CmdWord) :
    (∃ w, decode c = decodePut w (wdataField c)) ∨ (∃ w, decode c = decodeGet w) ∨
      decode c = .rsvd ∨ decode c = .init := by
  rw [decode_eq]
  split
  · exact .inr (.inr (.inr rfl))
  · exact .inr (.inr (.inl rfl))
  · exact .inl ⟨_, rfl⟩
  · exact .inr (.inl ⟨_, rfl⟩)

/-- The decoded command is the one of the word's op field (R63). -/
theorem opOf_decode (c : CmdWord) : opOf (decode c) = opField c := by
  rw [decode_eq]
  rcases op_values (opField c) with h | h | h | h | h | h | h | h <;> rw [h] <;> rfl

/-- Cutting a value to its low bits and extending it again is masking it. -/
theorem setWidth_extractLsb'_low (n : Nat) (d : Word) :
    (d.extractLsb' 0 n).setWidth 32 = d &&& BitVec.ofNat 32 (2 ^ n - 1) := by
  apply BitVec.eq_of_getLsbD_eq
  intro i hi
  simp only [BitVec.getLsbD_setWidth, BitVec.getLsbD_extractLsb', BitVec.getLsbD_and, BitVec.getLsbD_ofNat,
    Nat.testBit_two_pow_sub_one, hi, Nat.zero_add, decide_true, Bool.true_and, Bool.and_comm]

/-- The operand of a decoded PUT is the data field's used bits (R64). -/
theorem wdataOf_decodePut (w : Width) (d : Word) : wdataOf (decodePut w d) = d &&& usedBits (decodePut w d) := by
  cases w with
  | one => exact setWidth_extractLsb'_low _ d
  | two => exact setWidth_extractLsb'_low _ d
  | four => exact (BitVec.and_allOnes (x := d)).symm

theorem wdataOf_decode (c : CmdWord) : wdataOf (decode c) = wdataField c &&& usedBits (decode c) := by
  rcases decode_kinds c with ⟨w, h⟩ | ⟨w, h⟩ | h | h <;> rw [h]
  case inl => exact wdataOf_decodePut w _
  case inr.inl => cases w <;> exact BitVec.and_zero.symm
  case inr.inr.inl => exact BitVec.and_zero.symm
  case inr.inr.inr => exact BitVec.and_zero.symm

/-! ## Decoding and encoding -/

/-- Settles O1: the word has the command's op field, and the decoder cuts its zero-extended operand back. -/
theorem decodeEncodeRoundTrip : Obligations.DecodeEncodeRoundTrip := by
  intro i
  cases i with
  | put8 v => exact (decode_cmdWord 0b000#3 (operand8 v)).trans (congrArg Instr.put8 (operand8_low v))
  | put16 v => exact (decode_cmdWord 0b001#3 (operand16 v)).trans (congrArg Instr.put16 (operand16_low v))
  | put32 v => exact decode_cmdWord 0b010#3 v
  | rsvd => exact decode_cmdWord 0b011#3 0
  | get8 => exact decode_cmdWord 0b100#3 0
  | get16 => exact decode_cmdWord 0b101#3 0
  | get32 => exact decode_cmdWord 0b110#3 0
  | init => exact decode_cmdWord 0b111#3 0

/-- Encoding what a word decodes to keeps its op field and the data bits that its command reads (R64, R72). -/
theorem encode_decode (c : CmdWord) :
    encode (decode c) = cmdWord (opField c) (wdataField c &&& usedBits (decode c)) := by
  rw [encode, opOf_decode, wdataOf_decode]

/-- Settles O2: the mask takes the word's op field whole and cuts its data field to the used bits. -/
theorem encodeDecodeClearsIgnoredBits : Obligations.EncodeDecodeClearsIgnoredBits := by
  intro c
  calc encode (decode c)
      = cmdWord (opField c) (wdataField c &&& usedBits (decode c)) := encode_decode c
    _ = cmdWord (opField c) (wdataField c) &&& cmdWord 0b111#3 (usedBits (decode c)) := by
        rw [cmdWord_and, show opField c &&& 0b111#3 = opField c from BitVec.and_allOnes]
    _ = c &&& (opMask ||| (usedBits (decode c)).setWidth 35) := by rw [cmdWord_fields, opMask_or]

/-! ## The opcode map -/

/-- A word under the mask is a row's match value exactly when the word decodes to that row (R63). -/
theorem and_opMask_eq_matchOf_iff (c : CmdWord) (i : Instr) :
    c &&& opMask = matchOf i ↔ opOf (decode c) = opOf i := by
  rw [and_opMask_eq, matchOf_eq, cmdWord_inj, opOf_decode, and_iff_left rfl]

/-- Settles O3: each row is the decoder's table at its op field. -/
theorem opcodeMapRows : Obligations.OpcodeMapRows :=
  ⟨fun d => ⟨decode_cmdWord _ d, decode_cmdWord _ d, decode_cmdWord _ d, decode_cmdWord _ d, decode_cmdWord _ d,
    decode_cmdWord _ d, decode_cmdWord _ d, decode_cmdWord _ d⟩, and_opMask_eq_matchOf_iff⟩

/-- Settles O5: each word is its two fields written together. -/
theorem sampleWordsDecode : Obligations.SampleWordsDecode :=
  ⟨decode_cmdWord 0b000#3 0xFFFFFFFF#32, decode_cmdWord 0b001#3 0xFFFFFFFF#32, decode_cmdWord 0b010#3 0xDDCCBBAA#32,
    decode_cmdWord 0b011#3 0xDEADBEEF#32, decode_cmdWord 0b100#3 0xFFFFFFFF#32, decode_cmdWord 0b101#3 0#32,
    decode_cmdWord 0b110#3 0#32, decode_cmdWord 0b111#3 0xFFFFFFFF#32⟩

/-! ## Ignored bits -/

/-- Which data bits a word's command reads is a matter of its op field (R64). -/
theorem usedBits_decode_congr {c c' : CmdWord} (h : opField c = opField c') :
    usedBits (decode c) = usedBits (decode c') := by
  rw [decode_eq, decode_eq c', h]
  rcases op_values (opField c') with e | e | e | e | e | e | e | e <;> rw [e] <;> rfl

/-- Settles O4: the two words encode to one word after decoding, and `decode` undoes `encode`. -/
theorem ignoredBitsHaveNoEffect : Obligations.IgnoredBitsHaveNoEffect := by
  intro c c' hop hused
  have same_word : encode (decode c) = encode (decode c') := by
    rw [encode_decode, encode_decode, hop, hused, usedBits_decode_congr hop]
  have same : decode c = decode c' := by
    simpa only [decodeEncodeRoundTrip _] using congrArg decode same_word
  exact ⟨same, fun s => by rw [same]⟩

/-! ## RSVD -/

/-- RSVD is alone in its row of the opcode map (R63). -/
theorem opOf_eq_rsvd_iff (i : Instr) : opOf i = opOf .rsvd ↔ i = .rsvd := by
  cases i <;> simp [opOf]

/-- Settles O20: the row of RSVD holds one command, whose meaning is its response and nothing else. -/
theorem rsvdRule : Obligations.RsvdRule := by
  refine ⟨fun c => ?_, fun s => ⟨_, execRsvd_eq s, sameBuffer_respondAny .eill s, ?_, rfl, _,
    respondAny_respondsWith .eill s⟩⟩
  · exact (and_opMask_eq_matchOf_iff c .rsvd).trans (opOf_eq_rsvd_iff _)
  · exact ⟨rfl, rfl, rfl, rfl, rfl, rfl⟩

/-! ## The assembler -/

/-- The assembler's two outcomes, from what its check of the immediate says and the word of a line that passes it. -/
theorem assembleLine_eq {l : AsmLine} {fits : Prop} [Decidable fits] {c : CmdWord}
    (hfits : l.wellFormed = true ↔ fits) (hword : fits → lineWord l = c) :
    assembleLine l = if fits then .ok c else .error .immediateTooWide := by
  by_cases h : fits
  · simp [assembleLine, hfits, h, hword h]
  · simp [assembleLine, hfits, h]

/-- Settles O6: the check is the bound of R72, and an immediate within it survives the cut to its field. -/
theorem assemblerFitsOrRejects : Obligations.AssemblerFitsOrRejects := by
  refine ⟨fun n => ?put8, fun n => ?put16, fun n => ?put32, rfl, rfl, rfl, rfl, fun n => ?cmd⟩
  case put8 =>
    exact assembleLine_eq decide_eq_true_iff fun h =>
      congrArg (cmdWord 0b000#3) (BitVec.setWidth_ofNat_of_le_of_lt (by decide) (by omega))
  case put16 =>
    exact assembleLine_eq decide_eq_true_iff fun h =>
      congrArg (cmdWord 0b001#3) (BitVec.setWidth_ofNat_of_le_of_lt (by decide) (by omega))
  case put32 => exact assembleLine_eq decide_eq_true_iff fun _ => rfl
  case cmd => exact assembleLine_eq decide_eq_true_iff fun _ => rfl

/-! ## The response word -/

/-- Bits 33..32 of a response word are its status code (R62). -/
theorem responseWord_status (r : Response) : (responseWord r).extractLsb' 32 2 = statusCode r.status := by
  apply BitVec.eq_of_getLsbD_eq
  intro i hi
  interval_cases i <;> simp [responseWord]

/-- Bits 31..0 of a response word are its data (R62). -/
theorem responseWord_rdata (r : Response) : (responseWord r).extractLsb' 0 32 = r.rdata := by
  apply BitVec.eq_of_getLsbD_eq
  intro i hi
  simp [responseWord, hi, show i < 34 by omega]

/-- Settles O33: the two fields do not overlap, and each status has its own code. -/
theorem responseWordFields : Obligations.ResponseWordFields :=
  ⟨fun r => ⟨responseWord_status r, responseWord_rdata r⟩, rfl, rfl, rfl, statusCode_ne⟩

end Sys2Proof
end

section
/-! Proofs of the statements about the datapath (40_datapath.md): the index unit and the wraparound split, values put
and got back in order, the transfers that must fail, and the edge that runs a command. -/

namespace Sys2Proof.Machine

/-! ## The index unit -/

/-- Below `2N` the modulo is one conditional subtraction (R89). -/
theorem mod_eq_ite_sub {n x : Nat} (h : x < 2 * n) : x % n = if n ≤ x then x - n else x := by
  split
  · next wraps => rw [Nat.mod_eq_sub_mod wraps, Nat.mod_eq_of_lt (by omega)]
  · next below => exact Nat.mod_eq_of_lt (by omega)

theorem idx_eq_ite {b : Build} {c k : Nat} (hc : c < b.N) (hk : k ≤ b.N) :
    idx b c k = if b.N ≤ c + k then c + k - b.N else c + k :=
  mod_eq_ite_sub (by omega)

theorem adv_eq_ite {b : Build} {c w : Nat} (hc : c < b.N) (hw : w ≤ b.N) :
    adv b c w = if b.N ≤ c + w then c + w - b.N else c + w :=
  mod_eq_ite_sub (by omega)

/-- Settles O8: the sums stay below `2N`, where one subtraction is enough. -/
theorem moduloIsOneConditionalSubtraction : Obligations.ModuloIsOneConditionalSubtraction := by
  intro b c k w hw hc hk
  exact ⟨by omega, by omega, idx_eq_ite hc (by omega), adv_eq_ite hc hw⟩

/-- The first segment: the slots from the cursor to the storage's end (R88). -/
theorem idx_before_end {b : Build} {c k : Nat} (h : k < b.N - c) : idx b c k = c + k :=
  Nat.mod_eq_of_lt (by omega)

/-- The second segment: the slots from 0 on (R88). -/
theorem idx_past_end {b : Build} {c k : Nat} (hc : c < b.N) (hk : k ≤ b.N) (h : b.N - c ≤ k) :
    idx b c k = k - (b.N - c) := by
  rw [idx_eq_ite hc hk, if_pos (by omega)]
  omega

/-- Settles O9: each byte lies before the storage's end or past it, and an access of at most `N` slots meets none
twice. -/
theorem wraparoundSegments : Obligations.WraparoundSegments := by
  intro b c w hc
  refine ⟨by omega, fun oneSegment k hk => idx_before_end (by omega),
    fun hw twoSegments => ⟨fun k => idx_before_end, ?_⟩, ?_⟩
  · exact fun k hk past => idx_past_end hc (by omega) past
  · exact fun hw j hj k hk => idx_injective (by omega) (by omega)

/-! ## Values of one width through the reference queue -/

/-- The value a PUT of width `w` stores is the low `8w` bits of its data (R64). -/
theorem lowBytes_toNat (w : Width) (v : Word) : (lowBytes w v).toNat = v.toNat % 256 ^ byteCount w := by
  cases w with
  | one => simp [lowBytes, operand8_toNat, byteCount]
  | two => simp [lowBytes, operand16_toNat, byteCount]
  | four => exact (Nat.mod_eq_of_lt v.isLt).symm

/-- The bytes that a PUT of width `w` appends to the queue, least significant first (R42, R64). -/
def putBytes (w : Width) (v : Word) : List Byte := leBytes (byteCount w) (lowBytes w v).toNat

@[simp] theorem length_putBytes (w : Width) (v : Word) : (putBytes w v).length = byteCount w := length_leBytes _ _

/-- The reference's answer to a PUT that fits (R28). -/
theorem fifoStep_put_fits {n : Nat} {q : List Byte} {w : Width} (v : Word) (h : q.length + byteCount w ≤ n) :
    fifoStep n q (decodePut w v) = ⟨q ++ putBytes w v, .ok, none⟩ := by
  rw [fifoStep_decodePut]
  exact fifoPut_fits (by simpa using h)

/-- The reference's answer to a GET of the width that put the oldest value: that value, zero-extended (R28, R43). -/
theorem fifoStep_get_putBytes (n : Nat) (w : Width) (v : Word) (q : List Byte) :
    fifoStep n (putBytes w v ++ q) (decodeGet w) = ⟨q, .ok, some (v.toNat % 256 ^ byteCount w)⟩ := by
  rw [fifoStep_decodeGet, putBytes, fifoGet_leBytes_append, lowBytes_toNat, Nat.mod_mod]

theorem length_fifoAnswers (n : Nat) (q : List Byte) (is : List Instr) : (fifoAnswers n q is).length = is.length := by
  induction is generalizing q with
  | nil => rfl
  | cons i is ih => exact congrArg (· + 1) (ih _)

/-- PUTs that all fit append their values' bytes in order. -/
theorem fifoQueueAfter_puts {n : Nat} (w : Width) (vs : List Word) {q : List Byte}
    (fits : q.length + vs.length * byteCount w ≤ n) :
    fifoQueueAfter n q (vs.map (decodePut w)) = q ++ vs.flatMap (putBytes w) := by
  induction vs generalizing q with
  | nil => simp [fifoQueueAfter]
  | cons v vs ih =>
    rw [List.length_cons, Nat.succ_mul] at fits
    rw [List.map_cons, fifoQueueAfter, fifoStep_put_fits v (by omega), ih (by simp; omega), List.flatMap_cons,
      List.append_assoc]

/-- GETs of the width that put the values answer those values in order. -/
theorem fifoAnswers_gets (n : Nat) (w : Width) (vs : List Word) :
    fifoAnswers n (vs.flatMap (putBytes w)) (List.replicate vs.length (decodeGet w)) =
      vs.map fun v => (.ok, some (v.toNat % 256 ^ byteCount w)) := by
  induction vs with
  | nil => rfl
  | cons v vs ih =>
    rw [List.flatMap_cons, List.length_cons, List.replicate_succ, fifoAnswers, fifoStep_get_putBytes, ih, List.map_cons]

/-- Settles O28: the reference's answers after those to the PUTs are the values, and they leave the block no choice. -/
theorem sameWidthFifoOrder : Obligations.SameWidthFifoOrder := by
  intro s w vs h empty fits
  have puts : (fifoAnswers s.build.N [] (vs.map (decodePut w))).length = vs.length := by
    rw [length_fifoAnswers, List.length_map]
  rw [runCommands_drop_eq h (as := vs.map fun v => (.ok, v.toNat % 256 ^ byteCount w))]
  · rw [List.map_map]; rfl
  · rw [queue_eq_nil empty, fifoAnswers_append, List.drop_left' puts, fifoQueueAfter_puts w vs (by simpa using fits),
      List.nil_append, fifoAnswers_gets, List.map_map]
    rfl

/-! ## One value put and got back -/

/-- Commands taken one after another leave a buffer that meets the invariant and holds the reference's queue (R28). -/
theorem runCommands_state (is : List Instr) {s : State} (h : s.BufferOk) :
    (runCommands is s).2.BufferOk ∧ (runCommands is s).2.build = s.build ∧
      queue (runCommands is s).2 = fifoQueueAfter s.build.N (queue s) is := by
  induction is generalizing s with
  | nil => exact ⟨h, rfl, rfl⟩
  | cons i is ih =>
    obtain ⟨t, r, ht, hq, -⟩ := exec_matchesAnswer i h
    obtain ⟨t', ht', hbuf⟩ := commandsKeepBufferInvariant i s h
    obtain rfl : t' = t := by simpa [ht'] using ht
    have later := ih hbuf
    rw [exec_build ht, hq] at later
    simpa [runCommands, ht, fifoQueueAfter] using later

/-- An empty queue is a free count of `N` (R27). -/
theorem State.BufferOk.fc_eq_of_queue_nil {s : State} (h : s.BufferOk) (empty : queue s = []) : s.fc = s.build.N := by
  have hocc := h.occupied_add_fc
  rw [← queue_length, empty] at hocc
  simpa using hocc

/-- Settles O29: the reference's two answers, and its queue, empty again. -/
theorem putGetRoundTrip : Obligations.PutGetRoundTrip := by
  intro s w v h empty fits
  have put : fifoStep s.build.N [] (decodePut w v) = ⟨putBytes w v, .ok, none⟩ :=
    fifoStep_put_fits v (by simpa using fits)
  have get := by simpa using fifoStep_get_putBytes s.build.N w v []
  have answers := runCommands_answers [decodePut w v, decodeGet w] h
  obtain ⟨hbuf, hbuild, hq⟩ := runCommands_state [decodePut w v, decodeGet w] h
  simp only [queue_eq_nil empty, fifoAnswers, fifoQueueAfter, put, get] at answers hq
  obtain ⟨⟨st, d⟩, rest, hput, hrest, hrun⟩ := List.forall₂_cons_left_iff.mp answers
  have hget := eq_map_of_answers_values (as := [(.ok, v.toNat % 256 ^ byteCount w)]) hrest
  obtain rfl : st = 0b00#2 := hput.1
  exact ⟨d, by rw [hrun, hget]; rfl, by rw [hbuf.fc_eq_of_queue_nil hq, hbuild]⟩

/-! ## Transfers that fail -/

/-- Settles O25: both transfers fail with ECAP, a response that leaves the buffer alone. -/
theorem boundaryFailures : Obligations.BoundaryFailures := by
  refine ⟨fun s w empty => ?_, fun s w v full => ?_⟩
  · have short : s.build.N < s.fc + byteCount w := by have := byteCount_pos w; omega
    exact ⟨_, _, (exec_decodeGet w s).trans (get_fails short), newest_respondAny .ecap s, sameBuffer_respondAny _ s⟩
  · exact ⟨_, _, (exec_decodePut w v s).trans (put_fails full), newest_respondAny .ecap s, sameBuffer_respondAny _ s⟩

/-! ## The edge that runs a command -/

/-- The word accepted was the first of the command stream, and the edge takes it off (R174). -/
theorem cmdIn_of_accepted {s : State} {c : CmdWord} (h : accepted s = some c) : some c :: (tick s).cmdIn = s.cmdIn := by
  obtain ⟨-, -, presents⟩ := accepted_eq_some.mp h
  obtain ⟨rest, hcmd⟩ := presentedCmd_eq_some.mp presents
  rw [tick_cmdIn, h, hcmd]
  rfl

/-- A word presented from outside is accepted at the next edge (log 3). -/
theorem accepted_presentNow (c : CmdWord) (s : State) : accepted (presentNow c s) = some c := by
  refine accepted_eq_some.mpr ⟨?_, rfl, presentedCmd_eq_some.mpr ⟨s.cmdIn, rfl⟩⟩
  unfold rstPin presentNow
  rcases s.rstIn with _ | ⟨_ | _, rest⟩ <;> rfl

/-- Settles O37: a command is accepted only while the sequencer rests, so `tick` moves nothing but the streams. -/
theorem stepRunsDecodedCommand : Obligations.StepRunsDecodedCommand := by
  refine ⟨fun s c hacc => ?_, fun s n w => accepted_presentNow _ s⟩
  obtain ⟨-, rests, -⟩ := accepted_eq_some.mp hacc
  exact ⟨step_command hacc, tick_sameBuffer rests, tick_build s, by simp [rests], by simp [rests], by simp [rests],
    tick_rstIn s, cmdIn_of_accepted hacc, tick_rspLine s⟩

end Sys2Proof.Machine
end

section
/-! Proofs of the statements about INIT (41_initialize.md): the buffer that it reaches does not depend on the state it
starts from. -/

namespace Sys2Proof.Machine

theorem SameBuffer.symm {s t : State} (h : SameBuffer s t) : SameBuffer t s := by
  obtain ⟨hmem, hrd, hwr, hfc⟩ := h
  exact ⟨hmem.symm, hrd.symm, hwr.symm, hfc.symm⟩

theorem SameBuffer.trans {s t u : State} (h : SameBuffer s t) (h' : SameBuffer t u) : SameBuffer s u := by
  obtain ⟨hmem, hrd, hwr, hfc⟩ := h
  obtain ⟨hmem', hrd', hwr', hfc'⟩ := h'
  exact ⟨hmem'.trans hmem, hrd'.trans hrd, hwr'.trans hwr, hfc'.trans hfc⟩

/-- Emptying the buffer gives the reset values, and these depend on the build alone (R37, R100). -/
theorem sameBuffer_resetOf_emptyBuffer (s : State) : SameBuffer (State.resetOf s.build) (emptyBuffer s) :=
  ⟨emptyBuffer_mem s, emptyBuffer_rd s, emptyBuffer_wr s, emptyBuffer_fc s⟩

/-- Starting the clear sequence moves the sequencer and leaves the architectural state alone (R35). -/
theorem sameBuffer_startClear (s : State) : SameBuffer s (startClear s) :=
  ⟨startClear_mem s, startClear_rd s, startClear_wr s, startClear_fc s⟩

/-- INIT completes in every state, keeps the build and reaches the buffer of the build's reset state (R101). -/
theorem exec_init_reaches_reset (s : State) :
    ∃ t, exec .init s = .next t ∧ t.build = s.build ∧ SameBuffer (State.resetOf s.build) t :=
  ⟨respondAny .ok (startClear (emptyBuffer s)), execInit_eq s, rfl,
    (sameBuffer_resetOf_emptyBuffer s).trans <| (sameBuffer_startClear _).trans <| sameBuffer_respondAny .ok _⟩

/-- Settles O21: the first INIT keeps the build, so the second one reaches the same reset buffer. -/
theorem initIsIdempotentAndTotal : Obligations.InitIsIdempotentAndTotal := by
  intro s
  obtain ⟨t, first, build, resetFirst⟩ := exec_init_reaches_reset s
  obtain ⟨u, second, -, resetSecond⟩ := exec_init_reaches_reset t
  rw [build] at resetSecond
  exact ⟨t, first, resetFirst, u, second, resetFirst.symm.trans resetSecond⟩

end Sys2Proof.Machine
end

section
/-! Proofs of the statements about the PUT family (42_put.md): what a slot reads as after a PUT, and the two outcomes of
a PUT of any width. -/

namespace Sys2Proof.Machine

/-! ## Decoding -/

/-- A word decodes as the word that its op field and its data make (R60). -/
theorem decode_of_opField {c : CmdWord} {o : BitVec 3} (h : opField c = o) :
    decode c = decode (cmdWord o (wdataField c)) := by
  rw [← h, cmdWord_fields]

/-! ## The bytes of the operands -/

theorem byteLane_operand8 (v : BitVec 8) : byteLane (operand8 v) 0 = v := operand8_low v

theorem byteLane_operand16 (v : BitVec 16) (k : Nat) : byteLane (operand16 v) k = v.extractLsb' (8 * k) 8 := by
  apply BitVec.eq_of_toNat_eq
  simp [byteLane, operand16_toNat]

/-! ## A slot after a PUT -/

/-- The byte that slot `a` holds after the lanes listed have written there, each its byte of `v` at its slot from cursor
`c`; `old` where none of them writes (R15, R86). -/
def slotAfterLanes (b : Build) (c : Nat) (v : Word) (a : Nat) (old : Byte) : List Nat → Byte
  | [] => old
  | k :: rest => if a = idx b c k then byteLane v k else slotAfterLanes b c v a old rest

/-- A byte is the one of `slotAfterLanes` if it is that of every lane that writes the slot, and the old one when none
does. -/
theorem eq_slotAfterLanes {b : Build} {c : Nat} {v : Word} {a : Nat} {old x : Byte} {lanes : List Nat}
    (written : ∀ k ∈ lanes, a = idx b c k → x = byteLane v k) (untouched : (∀ k ∈ lanes, idx b c k ≠ a) → x = old) :
    x = slotAfterLanes b c v a old lanes := by
  induction lanes with
  | nil => exact untouched (by simp)
  | cons k rest ih =>
    unfold slotAfterLanes
    split
    · next here => exact written k (by simp) here
    · next elsewhere =>
      refine ih (fun j hj => written j (by simp [hj])) fun others => untouched fun j hj => ?_
      rcases List.mem_cons.mp hj with rfl | hj
      · exact Ne.symm elsewhere
      · exact others j hj

/-- The enabled lanes are those below the width (R86). -/
theorem mem_enabledLanes {w : Width} {k : Nat} : k ∈ enabledLanes w ↔ k < byteCount w := by
  cases w <;> simp [enabledLanes, byteCount] <;> omega

/-- The whole storage after `MemWrite(c, w, v)`, slot by slot (R15, R42). -/
theorem read_memWrite {b : Build} {w : Width} (hw : byteCount w ≤ b.N) (m : Memory) (c : Nat) (v : Word) (a : Nat) :
    (memWrite b m c w v).read a = slotAfterLanes b c v a (m.read a) (enabledLanes w) := by
  refine eq_slotAfterLanes (fun k hk here => ?_) fun others => ?_
  · rw [here, read_memWrite_enabled hw (mem_enabledLanes.mp hk)]
  · exact read_memWrite_other fun k hk => others k (mem_enabledLanes.mpr hk)

/-! ## The two outcomes of a PUT -/

theorem sameProtocol_respondAny (st : Status) (s : State) : SameProtocol s (respondAny st s) :=
  ⟨rfl, rfl, rfl, rfl, rfl, rfl⟩

/-- A PUT that fits, with its frame: the enabled lanes' slots, `wr` and `fc` change, and OK is answered (R84 to R86,
R92). -/
theorem put_stores {w : Width} {s : State} (fits : byteCount w ≤ s.fc) (hw : byteCount w ≤ s.build.N) (v : Word) :
    ∃ t, put w v s = .next t ∧
      (∀ a, t.mem.read a = slotAfterLanes s.build s.wr v a (s.mem.read a) (enabledLanes w)) ∧
      t.wr = (s.wr + byteCount w) % s.build.N ∧ t.fc = s.fc - byteCount w ∧ t.rd = s.rd ∧
      SameProtocol s t ∧ t.ramRdata = s.ramRdata ∧ ∃ d, RespondsWith s ⟨.ok, d⟩ t := by
  have enters := (respondAny_respondsWith .ok (storeValue w v s)).congr (s' := s) rfl rfl rfl rfl rfl rfl rfl rfl
  exact ⟨_, put_ok fits, read_memWrite hw s.mem s.wr v, rfl, rfl, rfl, sameProtocol_respondAny .ok (storeValue w v s),
    rfl, _, enters⟩

/-- A PUT that does not fit answers ECAP and changes nothing else (R48, R92). -/
theorem put_rejects {w : Width} {s : State} (full : s.fc < byteCount w) (v : Word) :
    ∃ t, put w v s = .next t ∧
      SameBuffer s t ∧ SameProtocol s t ∧ t.ramRdata = s.ramRdata ∧ ∃ d, RespondsWith s ⟨.ecap, d⟩ t :=
  ⟨_, put_fails full, sameBuffer_respondAny .ecap s, sameProtocol_respondAny .ecap s, rfl, _,
    respondAny_respondsWith .ecap s⟩

/-! ## The commands -/

/-- Settles O13: one lane carries the operand, and any build has the slot it needs. -/
theorem put8Rule : Obligations.Put8Rule := by
  refine ⟨fun _ h => (decode_of_opField h).trans (decode_cmdWord 0b000#3 _), fun v s fits => ?_,
    fun v s full => put_rejects (w := .one) full (operand8 v)⟩
  obtain ⟨t, stored, slots, wr, fc, rd, unchanged⟩ := put_stores (w := .one) fits s.build.N_pos (operand8 v)
  refine ⟨t, stored, fun a => ?_, wr, fc, rd, ?_, unchanged⟩
  · simpa only [enabledLanes, slotAfterLanes, byteLane_operand8] using slots a
  · rw [stFull_iff, fc, byteCount]
    omega

/-- Settles O14: two lanes carry the operand's two bytes, low byte first. -/
theorem put16Rule : Obligations.Put16Rule := by
  refine ⟨fun _ h => (decode_of_opField h).trans (decode_cmdWord 0b001#3 _), fun v s fits range => ?_,
    fun v s full => put_rejects (w := .two) full (operand16 v)⟩
  obtain ⟨t, stored, slots, effect⟩ := put_stores (w := .two) fits (fits.trans range) (operand16 v)
  refine ⟨t, stored, fun a => ?_, effect⟩
  simpa only [enabledLanes, slotAfterLanes, byteLane_operand16] using slots a

/-- Settles O15: the four lanes carry the operand as it is, in ascending significance. -/
theorem put32Rule : Obligations.Put32Rule :=
  ⟨fun _ h => (decode_of_opField h).trans (decode_cmdWord 0b010#3 _),
    fun v _ fits range => put_stores (w := .four) fits (fits.trans range) v,
    fun v _ full => put_rejects (w := .four) full v⟩

end Sys2Proof.Machine
end

section
/-! Proofs of the statements about the GET family (43_get.md): the value of a GET as a sum over its bytes, and the two
outcomes of a GET of any width. -/

namespace Sys2Proof.Machine

/-! ## The value of a GET -/

/-- The little-endian value of a range of bytes, byte `k` at weight `2 ^ (8 * k)` (R43). -/
theorem leNat_map_range (n : Nat) (f : Nat → Byte) :
    leNat ((List.range n).map f) = ∑ k ∈ Finset.range n, 2 ^ (8 * k) * (f k).toNat := by
  induction n generalizing f with
  | zero => rfl
  | succ n ih =>
    rw [List.range_succ_eq_map, List.map_cons, List.map_map, leNat, ih, Finset.sum_range_succ', Finset.mul_sum,
      Nat.mul_zero, pow_zero, one_mul, Nat.add_comm]
    refine congrArg (· + (f 0).toNat) (Finset.sum_congr rfl fun k _ => ?_)
    rw [Function.comp_apply, Nat.mul_succ, pow_add]
    ring

/-- The value a GET of width `w` answers: the bytes from the read cursor on, least significant first (R43, R130 to
R132). -/
def valueAtCursor (w : Width) (s : State) : Nat :=
  ∑ k ∈ Finset.range (byteCount w), 2 ^ (8 * k) * (s.mem.read (idx s.build s.rd k)).toNat

/-- The unpacked lanes of the read port are the value at the cursor (R56, R87). -/
theorem unpack_captured_eq_valueAtCursor (w : Width) (s : State) :
    unpack w (captured w s) = BitVec.ofNat 32 (valueAtCursor w s) := by
  rw [unpack_captured, leNat_map_range, valueAtCursor]

theorem valueAtCursor_one (s : State) : valueAtCursor .one s = (s.mem.read (idx s.build s.rd 0)).toNat := by
  simp [valueAtCursor, byteCount]

theorem valueAtCursor_two (s : State) : valueAtCursor .two s =
    (s.mem.read (idx s.build s.rd 0)).toNat + 2 ^ 8 * (s.mem.read (idx s.build s.rd 1)).toNat := by
  simp [valueAtCursor, byteCount, Finset.sum_range_succ]

theorem valueAtCursor_four (s : State) : valueAtCursor .four s =
    (s.mem.read (idx s.build s.rd 0)).toNat + 2 ^ 8 * (s.mem.read (idx s.build s.rd 1)).toNat +
      2 ^ 16 * (s.mem.read (idx s.build s.rd 2)).toNat + 2 ^ 24 * (s.mem.read (idx s.build s.rd 3)).toNat := by
  simp [valueAtCursor, byteCount, Finset.sum_range_succ]

/-! ## The two outcomes of a GET -/

/-- A GET of bytes that are held, with its frame: `rd` and `fc` change, and OK is answered with the value at the cursor
(R84, R85, R92). -/
theorem get_takes {w : Width} {s : State} (held : s.fc + byteCount w ≤ s.build.N) :
    ∃ t, get w s = .next t ∧
      RespondsWith s ⟨.ok, BitVec.ofNat 32 (valueAtCursor w s)⟩ t ∧
      t.rd = (s.rd + byteCount w) % s.build.N ∧ t.fc = s.fc + byteCount w ∧ t.wr = s.wr ∧
      (∀ a, t.mem.read a = s.mem.read a) ∧ SameProtocol s t := by
  have enters := (postResponse_respondsWith ⟨.ok, unpack w (captured w s)⟩ (takeValue w s)).congr (s' := s)
    rfl rfl rfl rfl rfl rfl rfl rfl
  rw [← unpack_captured_eq_valueAtCursor]
  exact ⟨_, get_ok held, enters, rfl, rfl, rfl, fun _ => rfl, rfl, rfl, rfl, rfl, rfl, rfl⟩

/-- A GET of more bytes than are held answers ECAP and changes nothing else (R48, R92). -/
theorem get_rejects {w : Width} {s : State} (short : s.build.N < s.fc + byteCount w) :
    ∃ t, get w s = .next t ∧
      SameBuffer s t ∧ SameProtocol s t ∧ t.ramRdata = s.ramRdata ∧ ∃ d, RespondsWith s ⟨.ecap, d⟩ t :=
  ⟨_, get_fails short, sameBuffer_respondAny .ecap s, sameProtocol_respondAny .ecap s, rfl, _,
    respondAny_respondsWith .ecap s⟩

/-! ## The commands -/

/-- Settles O16: the value is the one byte at the cursor, and the new free count decides `st_empty`. -/
theorem get8Rule : Obligations.Get8Rule := by
  refine ⟨fun _ h => (decode_of_opField h).trans (decode_cmdWord 0b100#3 _), fun s held => ?_,
    fun s short => get_rejects (w := .one) short⟩
  obtain ⟨t, taken, value, rd, fc, wr, slots, build, sequencerAndInputs⟩ := get_takes (w := .one) held
  rw [valueAtCursor_one] at value
  refine ⟨t, taken, value, rd, fc, wr, ?_, slots, build, sequencerAndInputs⟩
  rw [stEmpty_iff, fc, build, byteCount]

/-- Settles O17: the value is the two bytes from the cursor on, low byte first. -/
theorem get16Rule : Obligations.Get16Rule := by
  refine ⟨fun _ h => (decode_of_opField h).trans (decode_cmdWord 0b101#3 _), fun s held => ?_,
    fun s short => get_rejects (w := .two) short⟩
  rw [← valueAtCursor_two]
  exact get_takes (w := .two) held

/-- Settles O18: the value is the four bytes from the cursor on, in ascending significance. -/
theorem get32Rule : Obligations.Get32Rule := by
  refine ⟨fun _ h => (decode_of_opField h).trans (decode_cmdWord 0b110#3 _), fun s held => ?_,
    fun s short => get_rejects (w := .four) short⟩
  rw [← valueAtCursor_four]
  exact get_takes (w := .four) held

end Sys2Proof.Machine
end

section
/-! Proofs of the statements about exceptions (60_exceptions.md): the status of every command as a function of the
state, what a status other than OK leaves unchanged, and the edge that takes no command. -/

namespace Sys2Proof.Machine

/-! ## The status of a command -/

theorem statusCode_inj {a b : Status} : statusCode a = statusCode b ↔ a = b :=
  ⟨statusCode_injective, congrArg statusCode⟩

/-- The status a PUT of width `w` answers (R81, R151). -/
def putStatus (w : Width) (s : State) : Status := if byteCount w ≤ s.fc then .ok else .ecap

/-- The status a GET of width `w` answers (R82, R151). -/
def getStatus (w : Width) (s : State) : Status := if s.fc + byteCount w ≤ s.build.N then .ok else .ecap

/-- The status each command answers (R150 to R152); `exec_answersStatus` ties it to `exec`. -/
def commandStatus (s : State) : Instr → Status
  | .put8 _ => putStatus .one s
  | .put16 _ => putStatus .two s
  | .put32 _ => putStatus .four s
  | .rsvd => .eill
  | .get8 => getStatus .one s
  | .get16 => getStatus .two s
  | .get32 => getStatus .four s
  | .init => .ok

theorem putStatus_eq_ecap_iff (w : Width) (s : State) : putStatus w s = .ecap ↔ s.fc < byteCount w := by
  simp [putStatus]

/-- The condition of R151's GET rows, in exact integers. -/
theorem getStatus_eq_ecap_iff (w : Width) (s : State) :
    getStatus w s = .ecap ↔ (s.build.N : Int) - s.fc < byteCount w := by
  have exact_integers : (s.build.N : Int) - s.fc < byteCount w ↔ s.build.N < s.fc + byteCount w := by omega
  rw [exact_integers]
  simp [getStatus]

theorem putStatus_ne_eill (w : Width) (s : State) : putStatus w s ≠ .eill := by
  unfold putStatus
  split <;> decide

theorem getStatus_ne_eill (w : Width) (s : State) : getStatus w s ≠ .eill := by
  unfold getStatus
  split <;> decide

/-- RSVD is the one command that answers EILL, and it does so in every state (R152). -/
theorem commandStatus_eq_eill_iff (s : State) (i : Instr) : commandStatus s i = .eill ↔ i = .rsvd := by
  cases i with
  | put8 | put16 | put32 => simp [commandStatus, putStatus_ne_eill]
  | get8 | get16 | get32 => simp [commandStatus, getStatus_ne_eill]
  | rsvd | init => simp [commandStatus]

/-! ## The outcome of a command -/

/-- The outcome `o` of a command in state `s` is a response with status `st`, and one other than OK leaves the
architectural state alone (R48). -/
def AnswersStatus (s : State) (o : Host.Outcome State Fault Refusal) (st : Status) : Prop :=
  ∃ t d, o = .next t ∧ newest t = some (statusCode st, d) ∧ (st ≠ .ok → SameBuffer s t)

/-- A response entered in the state itself, as an error's is, changes nothing (R48). -/
theorem answersStatus_respondAny (st : Status) (s : State) : AnswersStatus s (.next (respondAny st s)) st :=
  ⟨_, _, rfl, newest_respondAny st s, fun _ => sameBuffer_respondAny st s⟩

theorem put_answersStatus (w : Width) (v : Word) (s : State) : AnswersStatus s (put w v s) (putStatus w s) := by
  unfold putStatus
  split
  · next fits => exact ⟨_, _, put_ok fits, newest_respondAny .ok _, absurd rfl⟩
  · next full =>
    rw [put_fails (Nat.lt_of_not_le full)]
    exact answersStatus_respondAny .ecap s

theorem get_answersStatus (w : Width) (s : State) : AnswersStatus s (get w s) (getStatus w s) := by
  unfold getStatus
  split
  · next held => exact ⟨_, _, get_ok held, newest_postResponse _ _, absurd rfl⟩
  · next short =>
    rw [get_fails (Nat.lt_of_not_le short)]
    exact answersStatus_respondAny .ecap s

/-- Every command completes with its status. -/
theorem exec_answersStatus (i : Instr) (s : State) : AnswersStatus s (exec i s) (commandStatus s i) := by
  cases i with
  | put8 v => exact put_answersStatus .one (operand8 v) s
  | put16 v => exact put_answersStatus .two (operand16 v) s
  | put32 v => exact put_answersStatus .four v s
  | rsvd => exact answersStatus_respondAny .eill s
  | get8 => exact get_answersStatus .one s
  | get16 => exact get_answersStatus .two s
  | get32 => exact get_answersStatus .four s
  | init => exact ⟨_, _, execInit_eq s, newest_respondAny .ok _, absurd rfl⟩

/-! ## The exceptions -/

/-- Settles O22: a transfer's status is ECAP under its row's condition; RSVD answers EILL and INIT answers OK. -/
theorem capacityViolationExactly : Obligations.CapacityViolationExactly := by
  intro i s
  obtain ⟨t, d, completes, answer, -⟩ := exec_answersStatus i s
  refine ⟨t, _, completes, answer, (statusCode_inj (b := .ecap)).trans ?_⟩
  cases i with
  | put8 => exact putStatus_eq_ecap_iff .one s
  | put16 => exact putStatus_eq_ecap_iff .two s
  | put32 => exact putStatus_eq_ecap_iff .four s
  | get8 => exact getStatus_eq_ecap_iff .one s
  | get16 => exact getStatus_eq_ecap_iff .two s
  | get32 => exact getStatus_eq_ecap_iff .four s
  | rsvd | init => simp [commandStatus]

/-- Settles O23: EILL is RSVD's answer alone, and RSVD is alone in its row of the opcode map. -/
theorem illegalCommandExactly : Obligations.IllegalCommandExactly := by
  intro c s
  obtain ⟨t, d, completes, answer, -⟩ := exec_answersStatus (decode c) s
  refine ⟨t, _, completes, answer, ?_⟩
  calc statusCode (commandStatus s (decode c)) = statusCode .eill
    _ ↔ commandStatus s (decode c) = .eill := statusCode_inj
    _ ↔ decode c = .rsvd := commandStatus_eq_eill_iff s _
    _ ↔ opOf (decode c) = opOf .rsvd := (opOf_eq_rsvd_iff _).symm
    _ ↔ opField c = 0b011#3 := by rw [opOf_decode, opOf]

/-- Each status has one of the three codes that R67 gives a meaning. -/
theorem statusCode_values (st : Status) :
    statusCode st = 0b00#2 ∨ statusCode st = 0b01#2 ∨ statusCode st = 0b10#2 := by
  cases st with
  | ok => exact .inl rfl
  | ecap => exact .inr (.inl rfl)
  | eill => exact .inr (.inr rfl)

/-- Settles O24: code `00` is that of OK alone, and any other status leaves the buffer alone. -/
theorem errorsChangeNothing : Obligations.ErrorsChangeNothing := by
  intro i s
  obtain ⟨t, d, completes, answer, unchanged⟩ := exec_answersStatus i s
  exact ⟨t, _, completes, answer, statusCode_values _,
    fun failed => unchanged fun ok => failed (congrArg statusCode ok)⟩

/-! ## The edge without a command -/

/-- A cycle's own work takes the response on the pins off the front of those in flight (R175). -/
theorem inFlight_tick {s : State} (low : rstPin s = false) :
    inFlight (tick s) = if s.rspPend then (inFlight s).tail else inFlight s := by
  rw [← presented_append_inFlight_tick low]
  cases h : s.rspPend <;> simp [presented, rspValid, low, h]

/-- Settles O48: such an edge is the cycle's own work, with the clear sequencer at rest. -/
theorem idleKeepsState : Obligations.IdleKeepsState := fun s low idle rests =>
  ⟨tick s, step_quiet low idle, tick_sameBuffer rests, by simp [rests], tick_build s, inFlight_tick low⟩

end Sys2Proof.Machine
end

section
/-! Proofs of the statements about reset and the cycle protocol (70_reset_and_hazards.md): the response pipeline stage by
stage, the command that the host holds, the length of the clear sequence, and the reset edge. -/

namespace Sys2Proof.Machine

/-! ## The response pipeline, stage by stage -/

/-- The response that is `k` cycles from the pins: in the pending-response register for `k = 0`, else in a stage in front
of it (R175; log 8). `newest_eq_inStage` and `presented_eq_inStage` tie it to the two ends of the pipeline. -/
def inStage (s : State) : Nat → Option (BitVec 2 × Word)
  | 0 => if s.rspPend then some (s.rspSt, s.rspDat) else none
  | k + 1 => s.rspLine[k]?.join.map fun r => (statusCode r.status, r.rdata)

theorem newest_eq_inStage (s : State) : newest s = inStage s s.rspLine.length := by
  unfold newest
  rcases List.eq_nil_or_concat s.rspLine with hl | ⟨line, last, hl⟩ <;> simp [hl, inStage]

theorem presented_eq_inStage {s : State} (low : rstPin s = false) : presented s = inStage s 0 := by
  simp [presented, rspValid, low, inStage]

/-- A cycle's own work brings every response one stage closer to the pins (R175). -/
theorem inStage_tick (s : State) (k : Nat) : inStage (tick s) k = inStage s (k + 1) := by
  cases k with
  | zero => rcases hl : s.rspLine with _ | ⟨_ | r, rest⟩ <;> simp [inStage, arriving, hl]
  | succ k =>
    have moved : (s.rspLine ++ [none]).tail[k]?.join = s.rspLine[k + 1]?.join := by
      rw [List.getElem?_tail]
      rcases lt_or_ge (k + 1) s.rspLine.length with inside | beyond
      · rw [List.getElem?_append_left inside]
      · rw [List.getElem?_append_right beyond, List.getElem?_eq_none beyond]
        cases k + 1 - s.rspLine.length <;> rfl
    simp only [inStage, tick_rspLine, moved]

/-- A response enters the last stage, and leaves those closer to the pins as they were. -/
theorem RespondsWith.inStage_eq {s t : State} {r : Response} (h : RespondsWith s r t) {k : Nat}
    (hk : k < s.rspLine.length) : inStage t k = inStage s k := by
  obtain ⟨-, staged⟩ := h
  obtain ⟨tline, tpend, tst, tdat⟩ := staged (List.ne_nil_of_length_pos (by omega))
  cases k with
  | zero => simp [inStage, tpend, tst, tdat]
  | succ k =>
    have kept : t.rspLine[k]? = s.rspLine[k]? := by
      have notLast : k < s.rspLine.length - 1 := by omega
      rw [tline, List.getElem?_append_left (by simpa using notLast), List.getElem?_dropLast, if_pos notLast]
    simp only [inStage, kept]

theorem length_rspLine_tick (s : State) : (tick s).rspLine.length = s.rspLine.length := by simp

/-- An edge without reset keeps the pipeline's length and brings every response one stage closer to the pins, whether it
accepts a command or not. -/
theorem step_inStage {s t : State} (low : rstPin s = false) (ht : step s = .next t) :
    t.rspLine.length = s.rspLine.length ∧ ∀ k < s.rspLine.length, inStage t k = inStage s (k + 1) := by
  rcases step_cases s with ⟨high, -⟩ | ⟨c, -, -, -, hs⟩ | ⟨-, -, hs⟩
  case inl => simp [low] at high
  case inr.inl =>
    obtain ⟨t', r, ht', enters, -⟩ := exec_protocol (decode c) (tick s)
    obtain rfl : t' = t := by simpa [hs, ht'] using ht
    refine ⟨enters.line_length.trans (length_rspLine_tick s), fun k hk => ?_⟩
    rw [enters.inStage_eq (by rwa [length_rspLine_tick]), inStage_tick]
  case inr.inr =>
    cases hs.symm.trans ht
    exact ⟨length_rspLine_tick s, fun k _ => inStage_tick s k⟩

/-- While `rst` is low, a response `j` stages further from the pins is in stage `k` after `j` edges. -/
theorem inStage_afterEdges {j k : Nat} {s : State} (low : RstLowFor j s) (hk : k + j ≤ s.rspLine.length) :
    inStage (afterEdges j s) k = inStage s (k + j) := by
  induction j generalizing s with
  | zero => rfl
  | succ j ih =>
    obtain ⟨t, ht, -, hrst⟩ := step_next s
    have pinLow : rstPin s = false := low.rstPin_afterEdges (Nat.succ_pos j)
    obtain ⟨hlen, closer⟩ := step_inStage pinLow ht
    rw [afterEdges_of_step ht, ih (low.tail hrst) (by omega), closer _ (by omega), Nat.add_assoc]

/-- Settles O44: the response enters the last of the `LAT_RSP` stages at the edge, and each later edge brings it one stage
closer to the pins. -/
theorem responseAfterLatency : Obligations.ResponseAfterLatency := by
  intro s c inv hacc low
  have latency := inv.line_length
  obtain ⟨t, r, ht, enters, -⟩ := exec_protocol (decode c) (tick s)
  have hstep : step s = .next t := (step_command hacc).trans ht
  obtain ⟨t', ht', -, hrst⟩ := step_next s
  obtain rfl : t' = t := by simpa [ht'] using hstep
  have entered : newest t' = some (statusCode r.status, r.rdata) := enters.newest_eq
  have hlen : t'.rspLine.length = s.rspLine.length := enters.line_length.trans (length_rspLine_tick s)
  have low' : RstLowFor (s.rspLine.length + 1) t' := RstLowFor.tail (latency ▸ low) hrst
  refine ⟨_, (congrArg newest (afterEdges_of_step hstep 0)).trans entered, ?_⟩
  calc presented (afterEdges s.build.latRsp s)
    _ = presented (afterEdges s.rspLine.length t') := by rw [← latency, afterEdges_of_step hstep]
    _ = inStage (afterEdges s.rspLine.length t') 0 := presented_eq_inStage (low'.rstPin_afterEdges (by omega))
    _ = inStage t' s.rspLine.length := by
      rw [inStage_afterEdges (fun j hj => low' j (by omega)) (by omega), Nat.zero_add]
    _ = some (statusCode r.status, r.rdata) := by rw [← hlen, ← newest_eq_inStage, entered]

/-! ## The command that the host holds -/

theorem restOfCmds_of_presented {s : State} {c : CmdWord} (h : presentedCmd s = some c) :
    restOfCmds false s.cmdIn = s.cmdIn := by
  obtain ⟨rest, hcmd⟩ := presentedCmd_eq_some.mp h
  rw [hcmd]
  rfl

/-- The command stream stands still at an edge that does not accept the command presented, with reset or without (R174,
R179). -/
theorem cmdIn_of_not_accepted {s t : State} {c : CmdWord} (presents : presentedCmd s = some c)
    (waits : accepted s = none) (ht : step s = .next t) : t.cmdIn = s.cmdIn := by
  rcases step_cases s with ⟨-, hs⟩ | ⟨c', -, -, hacc, -⟩ | ⟨-, -, hs⟩
  case inl =>
    cases hs.symm.trans ht
    exact restOfCmds_of_presented presents
  case inr.inl => simp [waits] at hacc
  case inr.inr =>
    cases hs.symm.trans ht
    rw [tick_cmdIn, waits]
    exact restOfCmds_of_presented presents

/-- A presented command stays presented for as long as it is not accepted (R174). -/
theorem presentedCmd_afterEdges {s : State} {c : CmdWord} (presents : presentedCmd s = some c) {k : Nat}
    (waits : ∀ j < k, accepted (afterEdges j s) = none) : presentedCmd (afterEdges k s) = some c := by
  induction k with
  | zero => exact presents
  | succ k ih =>
    have before := ih fun j hj => waits j (by omega)
    have held := cmdIn_of_not_accepted before (waits k (Nat.lt_succ_self k)) (step_afterEdges k s)
    rwa [presentedCmd, held]

theorem accepted_of_cmdReady {s : State} (ready : cmdReady s = true) : accepted s = presentedCmd s := by
  simp [accepted, ready]

theorem accepted_of_not_cmdReady {s : State} (notReady : cmdReady s = false) : accepted s = none := by
  simp [accepted, notReady]

/-! ## The length of the clear sequence -/

/-- When the clear sequence is over, `cmd_ready` is high in a cycle without reset (R172). -/
theorem ClearProgress.cmdReady_end {s t : State} (h : ClearProgress s t s.build.clrCycles) (low : rstPin t = false) :
    Machine.cmdReady t = true := by
  simp [Machine.cmdReady, h.busy, low]

/-- From the start of a clear sequence `cmd_ready` is low for `CLR_CYCLES` cycles and high in the next (R172). -/
theorem cmdReady_clearSequence {s : State} (busy : s.clrBusy = decide (0 < s.build.clrCycles))
    (cycle : s.clrCycle = 0) (low : RstLowFor (s.build.clrCycles + 1) s) :
    (∀ j < s.build.clrCycles, cmdReady (afterEdges j s) = false) ∧
      cmdReady (afterEdges s.build.clrCycles s) = true := by
  have progress : ∀ j ≤ s.build.clrCycles, ClearProgress s (afterEdges j s) j := fun j hj =>
    clearProgress_afterEdges busy cycle hj fun i hi => low i (by omega)
  exact ⟨fun j hj => (progress j hj.le).cmdReady hj,
    (progress _ le_rfl).cmdReady_end (low.rstPin_afterEdges (Nat.lt_succ_self _))⟩

/-- Settles O42: INIT answers a state in which the clear sequence starts. -/
theorem clearSequenceLastsClrCycles : Obligations.ClearSequenceLastsClrCycles := by
  intro s t ht low
  cases (execInit_eq s).symm.trans ht
  exact cmdReady_clearSequence rfl rfl low

/-- Settles O41: the reset edge starts a clear sequence, and the command waits until `cmd_ready` is high. -/
theorem resetHoldsPresentedCommand : Obligations.ResetHoldsPresentedCommand := by
  intro s c high presents low
  have later : ∀ j, afterEdges (j + 1) s = afterEdges j (resetEdge s) := afterEdges_of_step (step_reset high)
  have low' : RstLowFor (s.build.clrCycles + 1) (resetEdge s) := fun j hj => by
    simpa [List.getD_eq_getElem?_getD] using low (j + 1) (by omega) (by omega)
  obtain ⟨clearing, ready⟩ := cmdReady_clearSequence (s := resetEdge s) rfl rfl low'
  have waits : ∀ j ≤ s.build.clrCycles, accepted (afterEdges j s) = none := fun j hj => by
    cases j with
    | zero => exact accepted_reset high
    | succ j =>
      rw [later]
      exact accepted_of_not_cmdReady (clearing j hj)
  have held := presentedCmd_afterEdges presents fun j hj => waits j (Nat.le_of_lt_succ hj)
  refine ⟨waits, ?_⟩
  rw [later] at held ⊢
  exact (accepted_of_cmdReady ready).trans held

/-! ## The reset edge -/

/-- No response is on its way after a reset edge (R171, R178). -/
theorem inFlight_resetEdge (s : State) : inFlight (resetEdge s) = [] := by
  simp [inFlight]

/-- Settles O40: the fields of the reset edge, and the pins of its cycle. -/
theorem resetEdgeValues : Obligations.ResetEdgeValues := fun s high =>
  ⟨by simp [cmdReady, high], by simp [rspValid, high], accepted_reset high, resetEdge s, step_reset high,
    Memory.read_nil, rfl, rfl, rfl, rfl, inFlight_resetEdge s, rfl, rfl, rfl, rfl, fun _ => restOfCmds_of_presented⟩

end Sys2Proof.Machine
end
